-- ==== Sys2Proof/Word.lean ====
section
/-! DEFINITION. The data types of the K2O3 block's ports: bytes, symbols, Wordlist indices, slots and Words
(spec/10_state.md rules R29, R30; spec/00_scope.md rule R10). Every value is unsigned (R11). -/

namespace Sys2Proof

/-- A byte of the canonical Secret byte form and of a digest (R41). -/
abbrev Byte := BitVec 8

/-- One 8-bit symbol of a Word (R30). -/
abbrev Symbol := BitVec 8

/-- A Wordlist index, `IDXW` = 11 bits, 0 to 2047 (R7, R34). -/
abbrev Index := BitVec 11

/-- A slot of a word-index sequence: `unk` is bit 11 and `idx` is bits 10:0 (R29). -/
abbrev Slot := BitVec 12

/-- A 256-bit value port (R68): a number in plain binary, bit 0 least significant. -/
abbrev Value := BitVec 256

/-- A Word: a finite sequence of 0 to `WORD_MAXLEN` = 31 symbols (R10, R30).
Two Words are equal when they have the same length and the same symbol at every position,
which is equality of the lists. -/
structure Word where
  symbols : List Symbol
  fits : symbols.length ≤ 31
  deriving DecidableEq, Repr

end Sys2Proof
end

