-- ==== Sys2Proof/Config.lean ====
section
/-! DEFINITION. The configuration of the block: the Wordlist and the hash function, fixed before the first request and written
by no operation (spec/00_scope.md rules R8, R9; spec/10_state.md rules R21, R22; spec/70_reset_and_hazards.md R251, R252).
It is a parameter of the operations and no field of State (R21). The premises that the spec puts on a configuration are
fields of it, so that no configuration outside the spec's rules can be built. -/

namespace Sys2Proof

/-- A digest of `HASH`: a byte string of at least one byte (R8). `byte0` is its byte 0, the only byte that is read (R53). -/
structure Digest where
  byte0 : Byte
  rest : List Byte
  deriving DecidableEq, Repr, Inhabited

/-- The configuration (`WORDLIST`, `HASH`) of R21 and R22.
`wordlist` is `WORDLIST : index 0..2047 -> Word`, with pairwise different entries of 1 to 31 symbols (R9, R150; the upper
bound is `Word.fits`). `hash` is `HASH : byte string -> byte string` (R8).
The values after `:=` are no part of the model: they show Lean that a configuration exists, which a constant
without a body needs (notes/assumptions/4.md). -/
structure Config where
  wordlist : Index → Word := fun i => ⟨[BitVec.setWidth 8 (i >>> 8), BitVec.setWidth 8 i], by simp⟩
  wordlist_injective : ∀ i j, wordlist i = wordlist j → i = j := by
    intro i j h
    simp only [Word.mk.injEq, List.cons.injEq, and_true] at h
    obtain ⟨h₁, h₂⟩ := h
    have h₁ := congrArg BitVec.toNat h₁
    have h₂ := congrArg BitVec.toNat h₂
    simp [BitVec.toNat_ushiftRight, Nat.shiftRight_eq_div_pow] at h₁ h₂
    apply BitVec.eq_of_toNat_eq
    omega
  wordlist_nonempty : ∀ i, 1 ≤ (wordlist i).symbols.length := by intro i; simp
  hash : List Byte → Digest := fun _ => ⟨0, []⟩
  deriving Inhabited

/-- The configuration of the block that `step` runs. Its contents are open parameters of the spec (R8, R9), so it is a
constant without a body: a theorem about `step` holds whatever the Wordlist and the hash are. -/
opaque Config.platform : Config

end Sys2Proof
end

