-- ==== Sys2Proof/Syntax.lean ====
section
/-! DEFINITION. The operations of the block as syntax, one constructor per row of spec/opcode_table.json
(spec/30_encoding.md rules R61, R62, R63). An operation carries the command fields it reads (R63) and no other. -/

namespace Sys2Proof

/-- The complete operation set (R234). The fields are the plain numbers the spec says they are (R64). -/
inductive Instr where
  /-- ADD at the stated width `bits` (R90). -/
  | add (bits : Nat)
  /-- SUB at the stated width `bits` (R91). -/
  | sub (bits : Nat)
  /-- ENC at the stated width `bits` (R110). -/
  | enc (bits : Nat)
  /-- DEC of `nwords` slots (R130). -/
  | dec (nwords : Nat)
  /-- WSTR, Wordlist index to Word (R151). -/
  | wstr
  /-- WIDX of a Word of `wlen` symbols (R152). -/
  | widx (wlen : Nat)
  /-- SUGGEST for a Word of `wlen` symbols (R190). -/
  | suggest (wlen : Nat)
  deriving DecidableEq, Repr

end Sys2Proof
end

