-- ==== Sys2Proof/WellFormed.lean ====
section
/-! DEFINITION. Which instructions can be written in a command word: each field fits its place in `CMD32`
(spec/30_encoding.md rule R61). A well-formed instruction can still be answered with an error (R64). -/

namespace Sys2Proof

/-- `BITS` is 0..1023, `NWORDS` is 0..255, `WLEN` is 0..31 (R61). -/
def Instr.wellFormed : Instr → Bool
  | .add bits => bits < 1024
  | .sub bits => bits < 1024
  | .enc bits => bits < 1024
  | .dec nwords => nwords < 256
  | .wstr => true
  | .widx wlen => wlen < 32
  | .suggest wlen => wlen < 32

abbrev Instr.WellFormed (i : Instr) : Prop := i.wellFormed = true

end Sys2Proof
end

