-- ==== Sys2Proof/Decode.lean ====
section
/-! DEFINITION. The command word `CMD32` (spec/30_encoding.md rules R61 to R67): its fields, the decoder, total on all 2^32
words and rejecting by name, and the encoder. A command is one 32-bit word on a port; a port has no byte order (R68). -/

namespace Sys2Proof

/-- `RSV`, bits 31:27 (R61). -/
def cmdRSV (w : BitVec 32) : BitVec 5 := w.extractLsb' 27 5

/-- `WLEN`, bits 26:22 (R61). -/
def cmdWLEN (w : BitVec 32) : BitVec 5 := w.extractLsb' 22 5

/-- `NWORDS`, bits 21:14 (R61). -/
def cmdNWORDS (w : BitVec 32) : BitVec 8 := w.extractLsb' 14 8

/-- `BITS`, bits 13:4 (R61). -/
def cmdBITS (w : BitVec 32) : BitVec 10 := w.extractLsb' 4 10

/-- `OP`, bits 3:0 (R61). -/
def cmdOP (w : BitVec 32) : BitVec 4 := w.extractLsb' 0 4

/-- Why a command word is illegal (R65). Both reasons are answered with `IllegalCommand`. -/
inductive DecodeReject where
  /-- `RSV` is not 0. -/
  | reservedField (rsv : BitVec 5)
  /-- `OP` is 0 or one of 8..15. -/
  | reservedOp (op : BitVec 4)
  deriving DecidableEq, Repr

/-- The command decoder: R62's table, after R65's check of `RSV`. The fields an operation does not read are ignored
whatever their value (R63). -/
def decode (w : BitVec 32) : Except DecodeReject Instr :=
  if cmdRSV w ≠ 0 then .error (.reservedField (cmdRSV w))
  else
    match (cmdOP w).toNat with
    | 1 => .ok (.add (cmdBITS w).toNat)
    | 2 => .ok (.sub (cmdBITS w).toNat)
    | 3 => .ok (.enc (cmdBITS w).toNat)
    | 4 => .ok (.dec (cmdNWORDS w).toNat)
    | 5 => .ok .wstr
    | 6 => .ok (.widx (cmdWLEN w).toNat)
    | 7 => .ok (.suggest (cmdWLEN w).toNat)
    | _ => .error (.reservedOp (cmdOP w))

/-- `OP` | `BITS` << 4 | `NWORDS` << 14 | `WLEN` << 22 (R67), `RSV` 0. -/
def packCommand (op bits nwords wlen : Nat) : BitVec 32 :=
  BitVec.ofNat 32 (op ||| bits <<< 4 ||| nwords <<< 14 ||| wlen <<< 22)

/-- The command word of an instruction, the fields it does not read 0 (R62, R67). -/
def encode : Instr → BitVec 32
  | .add bits => packCommand 1 bits 0 0
  | .sub bits => packCommand 2 bits 0 0
  | .enc bits => packCommand 3 bits 0 0
  | .dec nwords => packCommand 4 0 nwords 0
  | .wstr => packCommand 5 0 0 0
  | .widx wlen => packCommand 6 0 0 wlen
  | .suggest wlen => packCommand 7 0 0 wlen

/-- The instruction read from the low `nbits` bits of `w`, numbered as spec/opcode_table.json numbers them;
`none` where the decoder rejects the word. A command is one 32-bit word (R66), so there is nothing wider. -/
def decodeTableWord (nbits w : Nat) : Option Instr :=
  if nbits ≤ 32 then
    match decode (BitVec.ofNat 32 (w % 2 ^ nbits)) with
    | .ok i => some i
    | .error _ => none
  else none

end Sys2Proof
end

