-- ==== Sys2Proof/Machine/State.lean ====
section
/-! DEFINITION. The state of the block. The block has no registers, no program counter, no flags and no mutable architectural
state (spec/10_state.md rules R20, R23 to R26): what a step of the model reads and writes are the request ports the host
drives (R27) and the response the block gives (R28). Plain data, no functions; the configuration is in Sys2Proof/Config.lean. -/

namespace Sys2Proof.Machine

/-- The error kinds (spec/60_exceptions.md rule R221). -/
inductive ErrorKind where
  | invalidChecksum
  | invalidWordCount
  | unknownWord
  /-- Never produced by the block itself (R221): only by the host's JOIN dispatcher. -/
  | insufficientShares
  | bitWidthMismatch
  | unsupportedBitWidth
  | illegalCommand
  deriving DecidableEq, Repr

/-- The data ports of an Ok response: exactly the ports named for the operation in R63's last column.
The ports not named have no meaning (R13, R28), and no constructor holds a value for them. -/
inductive OkPorts where
  /-- ADD, SUB, DEC: `RES` and `RESW`. -/
  | value (res : Value) (resw : BitVec 10)
  /-- ENC, WIDX: `NWOUT` and `WOUT[0..NWOUT-1]`. -/
  | slots (nwout : BitVec 8) (wout : List Slot)
  /-- WSTR: `WLENOUT` and `CHOUT[0..WLENOUT-1]`. -/
  | word (wlenout : BitVec 5) (chout : List Symbol)
  /-- SUGGEST: `PFXV`, `NWOUT` and `WOUT[0..NWOUT-1]`. -/
  | suggestion (pfxv : BitVec 1) (nwout : BitVec 8) (wout : List Slot)
  deriving DecidableEq, Repr

/-- A response (R28): Ok with data ports, or an error, which has only `STATUS` (its kind) and `INFO` and no data
(R220, decision D19: the error case of the response type has no data in it). -/
inductive Response where
  | ok (ports : OkPorts)
  | error (kind : ErrorKind) (info : BitVec 8)
  deriving DecidableEq, Repr

/-- A request: one value on each request port (R27). -/
structure Request where
  /-- The command word. -/
  cmd : BitVec 32
  opa : Value
  opb : Value
  /-- `WIN[0..23]`. -/
  win : Vector Slot 24
  /-- `CHIN[0..30]`. -/
  chin : Vector Symbol 31
  deriving DecidableEq, Repr

/-- The state: the request ports as the host drives them, and the block's last response since reset. `response` is `none`
exactly when no response has been given since reset, when the response ports hold no meaningful value (R36, R250). -/
structure State where
  request : Request
  response : Option Response
  deriving DecidableEq, Repr

/-- The faults of the machine: none. Every request gets a response and no behaviour leaves the machine stuck
(spec/93_implementation_defined.md, the end of part 1; R220: the block has no traps). -/
inductive Fault where
  deriving DecidableEq, Repr

/-- The refusals of the model. -/
inductive Refusal where
  /-- Raised by `exec` for an instruction that has no meaning yet; no arm of this model raises it. Safe. -/
  | notModelled (mnemonic : String)
  deriving DecidableEq, Repr

/-- Request ports that hold 0 everywhere. -/
def Request.zero : Request :=
  { cmd := 0, opa := 0, opb := 0, win := Vector.replicate 24 0, chin := Vector.replicate 31 0 }

/-- The state after reset (R36, R250): no response given yet. The spec gives the request ports, which are the host's, no
reset value: they hold 0. DESIGN CHOICE, unsafe (notes/assumptions/2.md). -/
def State.reset : State := { request := Request.zero, response := none }

end Sys2Proof.Machine
end

