-- ==== Sys2Proof/Machine/Flags.lean ====
section
/-! DEFINITION. The status of a response. The block has no flags and no condition codes: no carry, borrow, overflow, zero or
sign is computed or observable on any port (spec/10_state.md rule R26; spec/60_exceptions.md rule R229). The only status is
the `STATUS` code of a response and its `INFO` (R28, R221). -/

namespace Sys2Proof.Machine

/-- The `STATUS` code of an error kind (R221). -/
def errorCode : ErrorKind → BitVec 4
  | .invalidChecksum => 1
  | .invalidWordCount => 2
  | .unknownWord => 3
  | .insufficientShares => 4
  | .bitWidthMismatch => 5
  | .unsupportedBitWidth => 6
  | .illegalCommand => 7

/-- Port `STATUS`: 0 for Ok, else the error's code (R28, R221). -/
def Response.status : Response → BitVec 4
  | .ok _ => 0
  | .error kind _ => errorCode kind

/-- Port `INFO`: the error's detail, 0 for Ok (R28, R221). -/
def Response.info : Response → BitVec 8
  | .ok _ => 0
  | .error _ info => info

end Sys2Proof.Machine
end

