-- ==== Sys2Proof/Machine/Operands.lean ====
section
/-! DEFINITION. Operands and results on the ports: widths (spec/00_scope.md rule R7), slots (R29), the input slots and the input
Word of a request (R63, R69), values against their stated width (R31, R68), the byte form of a Secret (R41), and the data
ports of a response one by one (R28). -/

namespace Sys2Proof.Machine

/-! ## Widths -/

/-- BitWidth is restricted to {128, 256} (R7). -/
def widthSupported (W : Nat) : Bool := W == 128 || W == 256

/-- `CSW(W)` = W/32, the checksum width in bits (R7). -/
def checksumWidth (W : Nat) : Nat := W / 32

/-- `NW(W)` = (W + W/32)/11, the words of a mnemonic (R7). -/
def wordCount (W : Nat) : Nat := (W + checksumWidth W) / 11

/-- `NB(W)` = W/8, the bytes of the canonical byte form (R7). -/
def byteCount (W : Nat) : Nat := W / 8

/-- A port value lies in [0, 2^W): no bit at or above its stated width is set (R31). -/
def valueFits (W : Nat) (v : Value) : Bool := v.toNat < 2 ^ W

/-! ## Slots -/

/-- `unk`, bit 11 of a slot (R29). -/
def slotUnk (s : Slot) : Bool := s.getLsbD 11

/-- `idx`, bits 10:0 of a slot (R29). -/
def slotIdx (s : Slot) : Index := s.extractLsb' 0 11

/-- The slot `unk` ‖ `idx` with `unk` = 0: the index zero-extended (R29, R69). -/
def knownSlot (i : Index) : Slot := BitVec.setWidth 12 i

/-- The slot (unk = 1, idx = 0), `0x800` on the wire, that a host presents for an absent word (R155). -/
def unknownSlot : Slot := 0x800#12

/-! ## Sequences on the request ports -/

/-- `WIN[0..n-1]`; slots at or beyond the count are ignored (R63, R69). -/
def inputSlots (n : Nat) (req : Request) : List Slot := req.win.toList.take n

/-- The Word [`CHIN[0]`, …, `CHIN[L-1]`]; symbols at or beyond the length are ignored (R69, R152). -/
def inputWord (L : Nat) (req : Request) : Word :=
  { symbols := req.chin.toList.take L
    fits := by simp }

/-- The position of the first slot with `unk` = 1 (R132). -/
def firstUnknown (slots : List Slot) : Option Nat := slots.findIdx? slotUnk

/-! ## The byte form -/

/-- `ent_bytes(s, W)`: W/8 bytes, most significant first, leading zeros kept (R41, R111). -/
def entBytes (s W : Nat) : List Byte :=
  (List.range (byteCount W)).map fun i => BitVec.ofNat 8 (s >>> (8 * (byteCount W - 1 - i)))

/-- `from_bytes`, the inverse: sum over i of b_i · 2^(8 · (NB − 1 − i)) (R41). -/
def fromBytes (b : List Byte) : Nat := b.foldl (fun v x => v * 2 ^ 8 + x.toNat) 0

/-! ## The data ports of a response, each where it has meaning (R28, R63) -/

/-- Port `RES`. -/
def Response.res : Response → Option Value
  | .ok (.value res _) => some res
  | _ => none

/-- Port `RESW`. -/
def Response.resw : Response → Option (BitVec 10)
  | .ok (.value _ resw) => some resw
  | _ => none

/-- Port `NWOUT`. -/
def Response.nwout : Response → Option (BitVec 8)
  | .ok (.slots nwout _) => some nwout
  | .ok (.suggestion _ nwout _) => some nwout
  | _ => none

/-- Ports `WOUT[0..NWOUT-1]`. -/
def Response.wout : Response → Option (List Slot)
  | .ok (.slots _ wout) => some wout
  | .ok (.suggestion _ _ wout) => some wout
  | _ => none

/-- Port `PFXV`. -/
def Response.pfxv : Response → Option (BitVec 1)
  | .ok (.suggestion pfxv _ _) => some pfxv
  | _ => none

/-- Port `WLENOUT`. -/
def Response.wlenout : Response → Option (BitVec 5)
  | .ok (.word wlenout _) => some wlenout
  | _ => none

/-- Ports `CHOUT[0..WLENOUT-1]`. -/
def Response.chout : Response → Option (List Symbol)
  | .ok (.word _ chout) => some chout
  | _ => none

end Sys2Proof.Machine
end

