-- ==== Sys2Proof/Machine/Ops.lean ====
section
/-! DEFINITION. The shared operations: giving a response, raising an error (the block's only exception mechanism,
spec/60_exceptions.md rule R220), reading the Wordlist ROM (R40), the hash port (R53), and reset (R250).
There is no return from an error (R231): nothing is saved and nothing is to be restored. -/

namespace Sys2Proof.Machine

/-- `respond`: the response becomes the content of the response ports, the request ports stay as the host drives them. -/
def State.answer (s : State) (r : Response) : State := { s with response := some r }

/-- `raise E(info)`: `STATUS` is the error's code, `INFO` is info, and no other port has meaning (R13, R220).
Nothing is saved, no mode changes and control goes nowhere: there is no state to save. -/
def raise (kind : ErrorKind) (info : Nat) : Response := .error kind (BitVec.ofNat 8 info)

/-- A command word the decoder rejects is answered with `IllegalCommand`, before every other check; nothing is computed
(R65, R228, R230). -/
def rejectCommand (_ : DecodeReject) : Response := raise .illegalCommand 0

/-- `WL[i]`, the read primitive of the Wordlist ROM (R40): no side effect, the same Word every time. -/
def readWL (cfg : Config) (i : Index) : Word := cfg.wordlist i

/-- The hash port (R53): byte 0 of `HASH(b)`, the only byte that is used. -/
def hashByte0 (cfg : Config) (b : List Byte) : Byte := (cfg.hash b).byte0

/-- The indices of the Wordlist, 0 to 2047 in order (R34). -/
def allIndices : List Index := (List.range 2048).map (BitVec.ofNat 11)

/-- Reset as an event (R250): there is no mutable state to set, the configuration is not touched, and the response ports hold
no meaningful value until the next response. The request ports are the host's and stay as they are. -/
def State.resetBlock (s : State) : State := { s with response := none }

end Sys2Proof.Machine
end

