-- ==== Sys2Proof/Machine/Arith.lean ====
section
/-! DEFINITION. Unit ARITH: the modular adder and subtractor over modulus 2^W (spec/40_arith.md rules R90 to R98). -/

namespace Sys2Proof.Machine

/-- `check_arith`: the width, then the range of both operands (R92). -/
def checkArith (W : Nat) (a b : Value) : Option ErrorKind :=
  if !widthSupported W then some .unsupportedBitWidth
  else if !valueFits W a || !valueFits W b then some .bitWidthMismatch
  else none

/-- (a + b) mod 2^W (R90). -/
def modAdd (W a b : Nat) : Nat := (a + b) % 2 ^ W

/-- (a − b) mod 2^W for a, b below 2^W: never negative, underflow wraps forward by adding 2^W (R91). -/
def modSub (W a b : Nat) : Nat := if b ≤ a then a - b else a + 2 ^ W - b

/-- A value result on (`RES`, `RESW`) (R28, R68). -/
def valueResponse (v W : Nat) : Response := .ok (.value (BitVec.ofNat 256 v) (BitVec.ofNat 10 W))

/-- The response of ADD (R90). -/
def addResponse (W : Nat) (req : Request) : Response :=
  match checkArith W req.opa req.opb with
  | some kind => raise kind 0
  | none => valueResponse (modAdd W req.opa.toNat req.opb.toNat) W

/-- The response of SUB: `OPB` is subtracted from `OPA` (R91). -/
def subResponse (W : Nat) (req : Request) : Response :=
  match checkArith W req.opa req.opb with
  | some kind => raise kind 0
  | none => valueResponse (modSub W req.opa.toNat req.opb.toNat) W

/-- ADD (R90). -/
def execAdd (bits : Nat) (s : State) : Host.Outcome State Fault Refusal :=
  .next (s.answer (addResponse bits s.request))

/-- SUB (R91). -/
def execSub (bits : Nat) (s : State) : Host.Outcome State Fault Refusal :=
  .next (s.answer (subResponse bits s.request))

end Sys2Proof.Machine
end

