-- ==== Sys2Proof/Machine/Encoder.lean ====
section
/-! DEFINITION. Unit ENC: the mnemonic encoder (spec/41_mnemonic_encoder.md rules R110 to R120) and the mnemonic code word
(spec/30_encoding.md rules R70 to R74). -/

namespace Sys2Proof.Machine

/-- `check_enc`: the width, then the range of the Secret (R116). -/
def checkEnc (W : Nat) (a : Value) : Option ErrorKind :=
  if !widthSupported W then some .unsupportedBitWidth
  else if !valueFits W a then some .bitWidthMismatch
  else none

/-- `checksum(s, W)` = d0 >> (8 − CSW), with d0 byte 0 of `HASH(ent_bytes(s, W))`: the first CSW bits of the digest, most
significant first (R112). -/
def checksum (cfg : Config) (s W : Nat) : Nat :=
  (hashByte0 cfg (entBytes s W)).toNat >>> (8 - checksumWidth W)

/-- The code word V = s · 2^CSW + c: the entropy bits followed by the checksum bits (R70, R113). -/
def codeWord (cfg : Config) (s W : Nat) : Nat := s * 2 ^ checksumWidth W + checksum cfg s W

/-- Group i of a code word of n groups, (V >> (11 · (n − 1 − i))) & 0x7FF: the first group is the most significant (R71). -/
def groupIndex (V n i : Nat) : Index := BitVec.ofNat 11 ((V >>> (11 * (n - 1 - i))) &&& 0x7FF)

/-- The groups of a code word, in order (R114). -/
def groups (V n : Nat) : List Index := (List.range n).map (groupIndex V n)

/-- The response of ENC: 12 or 24 slots with `unk` = 0 (R110, R115). -/
def encResponse (cfg : Config) (W : Nat) (req : Request) : Response :=
  match checkEnc W req.opa with
  | some kind => raise kind 0
  | none =>
    .ok (.slots (BitVec.ofNat 8 (wordCount W))
      ((groups (codeWord cfg req.opa.toNat W) (wordCount W)).map knownSlot))

/-- ENC (R110). -/
def execEnc (bits : Nat) (s : State) : Host.Outcome State Fault Refusal :=
  .next (s.answer (encResponse Config.platform bits s.request))

end Sys2Proof.Machine
end

