-- ==== Sys2Proof/Machine/Decoder.lean ====
section
/-! DEFINITION. Unit DEC: the mnemonic decoder (spec/42_mnemonic_decoder.md rules R130 to R142). -/

namespace Sys2Proof.Machine

/-- The width of a mnemonic from its word count: 12 gives 128, 24 gives 256, anything else is invalid (R66, R131). -/
def widthOfCount (n : Nat) : Option Nat :=
  if n = 12 then some 128 else if n = 24 then some 256 else none

/-- V = idx[0] ‖ idx[1] ‖ … , slot 0 in the most significant position (R133). -/
def joinGroups (idxs : List Index) : Nat := idxs.foldl (fun V i => V * 2 ^ 11 + i.toNat) 0

/-- Steps 2 to 4 of DEC on a rebuilt code word: split, verify the checksum, answer the tagged value (R134, R135, R136). -/
def verifyCodeWord (cfg : Config) (V W : Nat) : Response :=
  let s := V >>> checksumWidth W
  let c := V &&& (2 ^ checksumWidth W - 1)
  if c ≠ checksum cfg s W then raise .invalidChecksum 0 else valueResponse s W

/-- The response of DEC: count, then unknown word, then checksum (R130, R137). -/
def decResponse (cfg : Config) (n : Nat) (req : Request) : Response :=
  match widthOfCount n with
  | none => raise .invalidWordCount 0
  | some W =>
    match firstUnknown (inputSlots n req) with
    | some i => raise .unknownWord i
    | none => verifyCodeWord cfg (joinGroups ((inputSlots n req).map slotIdx)) W

/-- DEC (R130). -/
def execDec (nwords : Nat) (s : State) : Host.Outcome State Fault Refusal :=
  .next (s.answer (decResponse Config.platform nwords s.request))

end Sys2Proof.Machine
end

