-- ==== Sys2Proof/Machine/Fuzzy.lean ====
section
/-! DEFINITION. Unit FUZZ: the fuzzy word corrector (spec/45_fuzzy.md rules R190 to R197). It advises and changes nothing. -/

namespace Sys2Proof.Machine

/-- u is a strict prefix of e: shorter, and equal at every position of u (R191). -/
def strictPrefix (u e : List Symbol) : Bool := u.length < e.length && e.take u.length == u

/-- Row i + 1 of the edit-distance table from its second cell on. `left` is the cell to the left, `diag` the cell above that,
and `up :: ups` are the cells above from here on: D[i+1][j+1] = min(D[i][j+1] + 1, D[i+1][j] + 1, D[i][j] + (0 or 1))
(R192). -/
def levCells (a : Symbol) : List Symbol → Nat → Nat → List Nat → List Nat
  | b :: v, left, diag, up :: ups =>
    let cell := min (min (up + 1) (left + 1)) (diag + if a = b then 0 else 1)
    cell :: levCells a v cell up ups
  | _, _, _, _ => []

/-- The row of the table after the row `row`, for the symbol a of u; its first cell is D[i+1][0] = i + 1 (R192). -/
def levRow (v : List Symbol) (row : List Nat) (a : Symbol) : List Nat :=
  match row with
  | d :: ups => (d + 1) :: levCells a v (d + 1) d ups
  | [] => []

/-- `lev(u, v)` = D[len u][len v], computed row by row from row 0 = [0, 1, …, len v] (R192). -/
def lev (u v : List Symbol) : Nat := (u.foldl (levRow v) (List.range (v.length + 1))).getLastD 0

/-- P, the entries of which w is a strict prefix, in Wordlist order (R190). -/
def prefixEntries (cfg : Config) (w : Word) : List Index :=
  allIndices.filter fun i => strictPrefix w.symbols (readWL cfg i).symbols

/-- Scan on with the first of the nearest entries so far, `best` at distance `dist`: a later entry replaces it only when it
is strictly nearer (R193). -/
def scanNearest (d : Index → Nat) (best : Index) (dist : Nat) : List Index → Index
  | [] => best
  | i :: is => if d i < dist then scanNearest d i (d i) is else scanNearest d best dist is

/-- `nearestMatch`: the entry at minimum edit distance, ties broken by first occurrence in Wordlist order (R193). -/
def nearestEntry (cfg : Config) (w : Word) : Index :=
  let d := fun i => lev w.symbols (readWL cfg i).symbols
  scanNearest d 0 (d 0) allIndices

/-- The response for the nearest entry n and the prefix matches P: `WOUT[0]` is always n, and `WOUT[1]` is the prefix match,
there only when P has exactly one element (R190, R191: do not guess). -/
def suggestionOf (n : Index) : List Index → Response
  | [p] => .ok (.suggestion 1 2 [knownSlot n, knownSlot p])
  | _ => .ok (.suggestion 0 1 [knownSlot n])

/-- The response of SUGGEST (R190). -/
def suggestResponse (cfg : Config) (L : Nat) (req : Request) : Response :=
  suggestionOf (nearestEntry cfg (inputWord L req)) (prefixEntries cfg (inputWord L req))

/-- SUGGEST (R190). -/
def execSuggest (wlen : Nat) (s : State) : Host.Outcome State Fault Refusal :=
  .next (s.answer (suggestResponse Config.platform wlen s.request))

end Sys2Proof.Machine
end

