-- ==== Sys2Proof/Machine/Wordlist.lean ====
section
/-! DEFINITION. Unit WL: the two Wordlist lookups (spec/43_wordlist.md rules R150 to R153). They are the block's only memory
reads besides SUGGEST's scan; there is no store (R40). -/

namespace Sys2Proof.Machine

/-- The response of WSTR, index to Word (R151). -/
def wstrResponse (cfg : Config) (req : Request) : Response :=
  if slotUnk req.win[0] then raise .unknownWord 0
  else
    let w := readWL cfg (slotIdx req.win[0])
    .ok (.word (BitVec.ofNat 5 w.symbols.length) w.symbols)

/-- Word to index: the index i with `WL[i]` = w, unique because the entries are different (R150, R152). -/
def lookupWord (cfg : Config) (w : Word) : Option Index := allIndices.find? fun i => readWL cfg i = w

/-- The response for an index found, or for none (R152). -/
def lookupResponse : Option Index → Response
  | some i => .ok (.slots 1 [knownSlot i])
  | none => raise .unknownWord 0

/-- The response of WIDX, Word to index, by exact equality of Words (R152). -/
def widxResponse (cfg : Config) (L : Nat) (req : Request) : Response :=
  lookupResponse (lookupWord cfg (inputWord L req))

/-- WSTR (R151). -/
def execWstr (s : State) : Host.Outcome State Fault Refusal :=
  .next (s.answer (wstrResponse Config.platform s.request))

/-- WIDX (R152). -/
def execWidx (wlen : Nat) (s : State) : Host.Outcome State Fault Refusal :=
  .next (s.answer (widxResponse Config.platform wlen s.request))

end Sys2Proof.Machine
end

