-- ==== Sys2Proof/Machine/Dispatch.lean ====
section
/-! DEFINITION. The dispatch of an operation to its meaning, one arm per constructor of Instr (spec/30_encoding.md rule R62). -/

namespace Sys2Proof.Machine

def exec (i : Instr) (s : State) : Host.Outcome State Fault Refusal :=
  match i with
  | .add bits => Sys2Proof.Machine.execAdd bits s
  | .sub bits => Sys2Proof.Machine.execSub bits s
  | .enc bits => Sys2Proof.Machine.execEnc bits s
  | .dec nwords => Sys2Proof.Machine.execDec nwords s
  | .wstr => Sys2Proof.Machine.execWstr s
  | .widx wlen => Sys2Proof.Machine.execWidx wlen s
  | .suggest wlen => Sys2Proof.Machine.execSuggest wlen s

end Sys2Proof.Machine
end

