-- ==== Sys2Proof/Machine/Step.lean ====
section
/-! DEFINITION. One step: the block answers the request on its request ports, as one atomic step (spec/00_scope.md rule R14;
spec/20_memory.md rule R45). There is no program counter (R25): the command of a step is the word on port `CMD`. -/

namespace Sys2Proof.Machine

/-- Decode the command word and run the operation; an illegal command word is answered with `IllegalCommand` before every
other check (R65, R230). -/
def step (s : State) : Host.Outcome State Fault Refusal :=
  match decode s.request.cmd with
  | .ok i => exec i s
  | .error r => .next (s.answer (rejectCommand r))

/-- The state in which the host drives the command word made of the low `nbits` bits of `w` on port `CMD`, the other ports as
they are: `step` runs exactly it. -/
def State.withFetchWord (s : State) (nbits w : Nat) : State :=
  { s with request := { s.request with cmd := BitVec.ofNat 32 (w % 2 ^ nbits) } }

end Sys2Proof.Machine
end

