-- ==== Sys2Proof/Machine/Transaction.lean ====
section
/-! DEFINITION. A request and its response as a pure function of the request and the configuration (spec/00_scope.md rule R14),
for any configuration, and how a host issues a command and reads its response. The pseudo-operations (R76) are written with it:
they are host sequences and no operation of the block. -/

namespace Sys2Proof.Machine

/-- The response of an operation to a request, for any configuration. -/
def respond (cfg : Config) (i : Instr) (req : Request) : Response :=
  match i with
  | .add bits => addResponse bits req
  | .sub bits => subResponse bits req
  | .enc bits => encResponse cfg bits req
  | .dec nwords => decResponse cfg nwords req
  | .wstr => wstrResponse cfg req
  | .widx wlen => widxResponse cfg wlen req
  | .suggest wlen => suggestResponse cfg wlen req

/-- One request, one response (R14). -/
def issue (cfg : Config) (req : Request) : Response :=
  match decode req.cmd with
  | .ok i => respond cfg i req
  | .error r => rejectCommand r

/-- An error as a host gets it: its kind and its detail (R214). -/
structure HostError where
  kind : ErrorKind
  info : BitVec 8
  deriving DecidableEq, Repr

abbrev HostResult (α : Type) := Except HostError α

/-- A tagged value (W, v), as DEC returns one on (`RESW`, `RES`) (R16, R31). -/
structure Tagged where
  width : BitVec 10
  value : Value
  deriving DecidableEq, Repr

/-- The two matches of SUGGEST as Wordlist indices (R190). -/
structure Suggestion where
  prefixMatch : Option Index
  nearestMatch : Index
  deriving DecidableEq, Repr

/-- What a host makes of a response without the ports it asked for. No response of the block is of this kind
(notes/assumptions/10.md). -/
def unexpected {α : Type} : HostResult α := .error ⟨.illegalCommand, 0⟩

/-- The tagged value of a response of ADD, SUB or DEC. -/
def Response.toTagged : Response → HostResult Tagged
  | .ok (.value res resw) => .ok ⟨resw, res⟩
  | .ok _ => unexpected
  | .error kind info => .error ⟨kind, info⟩

/-- The slots of a response of ENC. -/
def Response.toSlots : Response → HostResult (List Slot)
  | .ok (.slots _ wout) => .ok wout
  | .ok _ => unexpected
  | .error kind info => .error ⟨kind, info⟩

/-- The one slot of a response of WIDX. -/
def Response.toSlot : Response → HostResult Slot
  | .ok (.slots _ [slot]) => .ok slot
  | .ok _ => unexpected
  | .error kind info => .error ⟨kind, info⟩

/-- The Word of a response of WSTR. -/
def Response.toWord : Response → HostResult Word
  | .ok (.word _ chout) => if h : chout.length ≤ 31 then .ok ⟨chout, h⟩ else unexpected
  | .ok _ => unexpected
  | .error kind info => .error ⟨kind, info⟩

/-- The matches of a response of SUGGEST: `WOUT[0]` is the nearest match, `WOUT[1]` the prefix match when `PFXV` is 1. -/
def Response.toSuggestion : Response → HostResult Suggestion
  | .ok (.suggestion 1 _ [n, p]) => .ok ⟨some (slotIdx p), slotIdx n⟩
  | .ok (.suggestion 0 _ [n]) => .ok ⟨none, slotIdx n⟩
  | .ok _ => unexpected
  | .error kind info => .error ⟨kind, info⟩

/-- A request with value operands; the ports an operation does not read may hold anything (R63) and hold 0. -/
def valueRequest (i : Instr) (a b : Value) : Request := { Request.zero with cmd := encode i, opa := a, opb := b }

/-- A request with a slot list on `WIN`, slot 0 first (R69). -/
def slotRequest (i : Instr) (slots : List Slot) : Request :=
  { Request.zero with cmd := encode i, win := Vector.ofFn fun k => slots.getD k 0 }

/-- A request with a Word on `CHIN`, symbol 0 first (R69). -/
def wordRequest (i : Instr) (w : Word) : Request :=
  { Request.zero with cmd := encode i, chin := Vector.ofFn fun k => w.symbols.getD k 0 }

/-- `%r = ADD.W %a, %b` (R75, R90). -/
def issueAdd (cfg : Config) (W : BitVec 10) (a b : Value) : HostResult Tagged :=
  (issue cfg (valueRequest (.add W.toNat) a b)).toTagged

/-- `%r = SUB.W %a, %b` (R75, R91). -/
def issueSub (cfg : Config) (W : BitVec 10) (a b : Value) : HostResult Tagged :=
  (issue cfg (valueRequest (.sub W.toNat) a b)).toTagged

/-- `%m = ENC.W %s` (R75, R110). -/
def issueEnc (cfg : Config) (W : BitVec 10) (s : Value) : HostResult (List Slot) :=
  (issue cfg (valueRequest (.enc W.toNat) s 0)).toSlots

/-- `(%w, %s) = DEC %m`, the length of the list being `NWORDS` (R75, R130). -/
def issueDec (cfg : Config) (slots : List Slot) : HostResult Tagged :=
  (issue cfg (slotRequest (.dec slots.length) slots)).toTagged

/-- `%word = WSTR %slot` (R75, R151). -/
def issueWstr (cfg : Config) (slot : Slot) : HostResult Word :=
  (issue cfg (slotRequest .wstr [slot])).toWord

/-- `%slot = WIDX "<word>"`, the length of the Word being `WLEN` (R75, R152). -/
def issueWidx (cfg : Config) (w : Word) : HostResult Slot :=
  (issue cfg (wordRequest (.widx w.symbols.length) w)).toSlot

/-- `(%p, %n) = SUGGEST "<word>"` (R75, R190). -/
def issueSuggest (cfg : Config) (w : Word) : HostResult Suggestion :=
  (issue cfg (wordRequest (.suggest w.symbols.length) w)).toSuggestion

end Sys2Proof.Machine
end

