-- ==== Sys2Proof/Machine/HostForms.lean ====
section
/-! DEFINITION. The host-side forms HEX, HEXBITS, MNEMBITS and FROMBYTES (spec/46_host_forms.md rules R210 to R213). They are
host arithmetic and no operation of the block. -/

namespace Sys2Proof.Machine

/-- A hexadecimal digit, `0`-`9` and `a`-`f` (R210). -/
def hexChar (d : Nat) : Char :=
  if d < 10 then Char.ofNat (0x30 + d) else Char.ofNat (0x61 + (d - 10))

/-- `HEX.W s`: W/4 digits, most significant first, leading zeros kept (R210). -/
def hexDigits (W s : Nat) : List Char :=
  (List.range (W / 4)).map fun j => hexChar ((s >>> (4 * (W / 4 - 1 - j))) &&& 0xF)

/-- The canonical hex string, with or without the `0x` in front (R210). -/
def hexString (withMark : Bool) (W s : Nat) : String :=
  (if withMark then "0x" else "") ++ String.ofList (hexDigits W s)

/-- `HEXBITS n` for a string of n digits, the `0x` not counted: n · 4 rounded up to the nearest supported width. No digit is
an empty share, more than 64 is `UnsupportedBitWidth` (R211). -/
def hexBits (n : Nat) : HostResult (Option (BitVec 10)) :=
  if n = 0 then .ok none
  else if n ≤ 32 then .ok (some 128)
  else if n ≤ 64 then .ok (some 256)
  else .error ⟨.unsupportedBitWidth, 0⟩

/-- The digits read as a base-16 number, most significant first (R211). -/
def hexValue (digits : List (BitVec 4)) : Nat := digits.foldl (fun v d => v * 16 + d.toNat) 0

/-- The share a hex string stands for: its inferred width and its value, or an empty share (R211). -/
def shareOfHex (digits : List (BitVec 4)) : HostResult (Option Tagged) := do
  let width ← hexBits digits.length
  return width.map fun W => ⟨W, BitVec.ofNat 256 (hexValue digits)⟩

/-- `MNEMBITS n`: the width of a mnemonic of n words (R212). -/
def mnemBits (n : Nat) : HostResult (BitVec 10) :=
  match widthOfCount n with
  | some W => .ok (BitVec.ofNat 10 W)
  | none => .error ⟨.invalidWordCount, 0⟩

/-- `FROMBYTES b`: 16 bytes are a Secret of width 128, 32 bytes one of width 256, big-endian (R213). -/
def secretOfBytes (b : List Byte) : HostResult Tagged :=
  if b.length = 16 then .ok ⟨128, BitVec.ofNat 256 (fromBytes b)⟩
  else if b.length = 32 then .ok ⟨256, BitVec.ofNat 256 (fromBytes b)⟩
  else .error ⟨.unsupportedBitWidth, 0⟩

end Sys2Proof.Machine
end

