-- ==== Sys2Proof/Machine/HostProgram.lean ====
section
/-! DEFINITION. Host programs: the lines of the spec's assembly (spec/30_encoding.md rule R75), what a line does to the host's
variables, and its text. The block has no part in it but to answer each command: it holds no program and no variables
(spec/10_state.md rules R23, R25). Branches and loops are the host's and are no lines (R25). -/

namespace Sys2Proof.Machine

/-- An operand of a line: a written value or a host variable `%name` (R75). -/
inductive Operand (α : Type) where
  | lit (value : α)
  | var (name : String)
  deriving DecidableEq, Repr

/-- A line of a host program, one form per operation, the result variables first (R75). -/
inductive Line where
  | add (r : String) (bits : BitVec 10) (a b : Operand Value)
  | sub (r : String) (bits : BitVec 10) (a b : Operand Value)
  | enc (m : String) (bits : BitVec 10) (s : Operand Value)
  | dec (w s : String) (m : Operand (List Slot))
  | wstr (word : String) (slot : Operand Slot)
  | widx (slot : String) (word : Operand Word)
  | suggest (p n : String) (word : Operand Word)
  deriving DecidableEq, Repr

/-- What a host variable holds. `absent` is the `none` that `%p` gets when `PFXV` is 0 (R75). -/
inductive HostVal where
  | value (v : Value)
  | width (w : BitVec 10)
  | slots (m : List Slot)
  | slot (s : Slot)
  | word (w : Word)
  | absent
  deriving DecidableEq, Repr

/-- The host's variables, the latest binding first. -/
abbrev Env := List (String × HostVal)

/-- An operand's value; `none` when the variable holds nothing of the kind the line needs, so that the host has no command
to issue. -/
def Operand.get {α : Type} (pick : HostVal → Option α) (env : Env) : Operand α → Option α
  | .lit v => some v
  | .var name => (env.lookup name).bind pick

def HostVal.value? : HostVal → Option Value
  | .value v => some v
  | _ => none

def HostVal.slots? : HostVal → Option (List Slot)
  | .slots m => some m
  | _ => none

def HostVal.slot? : HostVal → Option Slot
  | .slot s => some s
  | _ => none

def HostVal.word? : HostVal → Option Word
  | .word w => some w
  | _ => none

/-- The request of a line. A slot list of more than 255 slots has no `NWORDS`, so there is no command for it (R61). -/
def Line.request (env : Env) : Line → Option Request
  | .add _ bits a b => do
    return valueRequest (.add bits.toNat) (← a.get HostVal.value? env) (← b.get HostVal.value? env)
  | .sub _ bits a b => do
    return valueRequest (.sub bits.toNat) (← a.get HostVal.value? env) (← b.get HostVal.value? env)
  | .enc _ bits s => do
    return valueRequest (.enc bits.toNat) (← s.get HostVal.value? env) 0
  | .dec _ _ m => do
    let slots ← m.get HostVal.slots? env
    if slots.length < 256 then return slotRequest (.dec slots.length) slots else none
  | .wstr _ slot => do
    return slotRequest .wstr [← slot.get HostVal.slot? env]
  | .widx _ word => do
    let w ← word.get HostVal.word? env
    return wordRequest (.widx w.symbols.length) w
  | .suggest _ _ word => do
    let w ← word.get HostVal.word? env
    return wordRequest (.suggest w.symbols.length) w

/-- What an Ok response binds; an error binds nothing (R75). -/
def Line.bindings (r : Response) : Line → Env
  | .add x _ _ _ | .sub x _ _ _ =>
    match r.toTagged with
    | .ok t => [(x, .value t.value)]
    | .error _ => []
  | .enc m _ _ =>
    match r.toSlots with
    | .ok slots => [(m, .slots slots)]
    | .error _ => []
  | .dec w s _ =>
    match r.toTagged with
    | .ok t => [(w, .width t.width), (s, .value t.value)]
    | .error _ => []
  | .wstr x _ =>
    match r.toWord with
    | .ok w => [(x, .word w)]
    | .error _ => []
  | .widx x _ =>
    match r.toSlot with
    | .ok slot => [(x, .slot slot)]
    | .error _ => []
  | .suggest p n _ =>
    match r.toSuggestion with
    | .ok g => [(p, (g.prefixMatch.map fun i => HostVal.slot (knownSlot i)).getD .absent),
        (n, .slot (knownSlot g.nearestMatch))]
    | .error _ => []

/-- One line: issue its command and bind its results. -/
def runLine (cfg : Config) (env : Env) (l : Line) : Option (Env × Response) := do
  let req ← l.request env
  let r := issue cfg req
  return (l.bindings r ++ env, r)

/-- The lines of a program in order, with their responses. -/
def runLines (cfg : Config) (env : Env) : List Line → Option (Env × List Response)
  | [] => some (env, [])
  | l :: ls => do
    let (env', r) ← runLine cfg env l
    let (env'', rs) ← runLines cfg env' ls
    return (env'', r :: rs)

/-! ## The text of a line -/

def Operand.text {α : Type} (write : α → String) : Operand α → String
  | .lit v => write v
  | .var name => "%" ++ name

/-- A number in hexadecimal, `0x` in front (R75). -/
def valueText (v : Value) : String := "0x" ++ String.ofList (Nat.toDigits 16 v.toNat)

/-- A slot of a list: its decimal index, or `?` for `unk` = 1 (R75). -/
def slotText (s : Slot) : String := if slotUnk s then "?" else toString (slotIdx s).toNat

/-- A slot list `[i0, i1, …]` (R75). -/
def slotsText (m : List Slot) : String := "[" ++ String.intercalate ", " (m.map slotText) ++ "]"

/-- A Word in double quotes (R75). DESIGN CHOICE (notes/assumptions/23.md): the spec fixes no character set (R30,
91_not_in_source.md N8) and no escape, so each 8-bit symbol is written as the Unicode character whose code point is the symbol's
value, and no symbol, the quote `0x22` among them, is escaped. -/
def wordText (w : Word) : String := "\"" ++ String.ofList (w.symbols.map fun c => Char.ofNat c.toNat) ++ "\""

/-- `<results> = <MNEMONIC>[.<BITS>] <operands>` (R75). -/
def Line.text : Line → String
  | .add r bits a b => "%" ++ r ++ " = ADD." ++ toString bits.toNat ++ " " ++ a.text valueText ++ ", " ++ b.text valueText
  | .sub r bits a b => "%" ++ r ++ " = SUB." ++ toString bits.toNat ++ " " ++ a.text valueText ++ ", " ++ b.text valueText
  | .enc m bits s => "%" ++ m ++ " = ENC." ++ toString bits.toNat ++ " " ++ s.text valueText
  | .dec w s m => "(%" ++ w ++ ", %" ++ s ++ ") = DEC " ++ m.text slotsText
  | .wstr x slot => "%" ++ x ++ " = WSTR " ++ slot.text (fun s => slotsText [s])
  | .widx x word => "%" ++ x ++ " = WIDX " ++ word.text wordText
  | .suggest p n word => "(%" ++ p ++ ", %" ++ n ++ ") = SUGGEST " ++ word.text wordText

/-- An error kind's name, as the annotation of a line spells it (R75, R221). -/
def errorName : ErrorKind → String
  | .invalidChecksum => "InvalidChecksum"
  | .invalidWordCount => "InvalidWordCount"
  | .unknownWord => "UnknownWord"
  | .insufficientShares => "InsufficientShares"
  | .bitWidthMismatch => "BitWidthMismatch"
  | .unsupportedBitWidth => "UnsupportedBitWidth"
  | .illegalCommand => "IllegalCommand"

/-- The annotation `!<ErrorName>(info)` of a line whose response is an error (R75). -/
def annotation : Response → String
  | .ok _ => ""
  | .error kind info => "!" ++ errorName kind ++ "(" ++ toString info.toNat ++ ")"

end Sys2Proof.Machine
end

