-- ==== Sys2Proof/Machine/SplitJoin.lean ====
section
/-! DEFINITION. The secret splitter/joiner: the pseudo-operations SPLIT, JOIN_AB, JOIN_AC, JOIN_BC and JOIN, host sequences of
ADD and SUB at one width (spec/44_split_join.md rules R170 to R181). The scheme is kept as it is (R6, R181). -/

namespace Sys2Proof.Machine

/-- A KeyShare triple (A, B, C) (R33). It is a host-side value. -/
structure KeyShares where
  a : Value
  b : Value
  c : Value
  deriving DecidableEq, Repr

/-- `SPLIT.W s, A`: `B = SUB.W s, A`; `C = SUB.W A, B`. The draw of A is not done by the block: A is a free input (R170). -/
def split (cfg : Config) (W : BitVec 10) (s a : Value) : HostResult KeyShares := do
  let b ← issueSub cfg W s a
  let c ← issueSub cfg W a b.value
  return ⟨a, b.value, c.value⟩

/-- `JOIN_AB.W A, B`: `ADD.W A, B` (R172). -/
def joinAB (cfg : Config) (W : BitVec 10) (a b : Value) : HostResult Tagged := issueAdd cfg W a b

/-- `JOIN_AC.W A, C`: `t = ADD.W A, A`; `SUB.W t, C` (R173). -/
def joinAC (cfg : Config) (W : BitVec 10) (a c : Value) : HostResult Tagged := do
  let t ← issueAdd cfg W a a
  issueSub cfg W t.value c

/-- `JOIN_BC.W B, C`: `t = ADD.W B, B`; `ADD.W t, C` (R174). -/
def joinBC (cfg : Config) (W : BitVec 10) (b c : Value) : HostResult Tagged := do
  let t ← issueAdd cfg W b b
  issueAdd cfg W t.value c

/-- The width checks of JOIN on the chosen pair, then the join function `f` of that pair at their one width: an unsupported
width first, then a mismatch; no share is widened or cut (R175, R177). -/
def joinPair (f : BitVec 10 → Value → Value → HostResult Tagged) (x y : Tagged) : HostResult Tagged :=
  if !widthSupported x.width.toNat || !widthSupported y.width.toNat then .error ⟨.unsupportedBitWidth, 0⟩
  else if x.width ≠ y.width then .error ⟨.bitWidthMismatch, 0⟩
  else f x.width x.value y.value

/-- `JOIN a?, b?, c?`: the shares present choose the pair, (A, B) when all three are present; fewer than two is
`InsufficientShares`, before every other check (R175, R176). -/
def join (cfg : Config) (a b c : Option Tagged) : HostResult Tagged :=
  match a, b, c with
  | some x, some y, _ => joinPair (joinAB cfg) x y
  | some x, none, some y => joinPair (joinAC cfg) x y
  | none, some x, some y => joinPair (joinBC cfg) x y
  | _, _, _ => .error ⟨.insufficientShares, 0⟩

end Sys2Proof.Machine
end

