-- ==== Sys2Proof/Machine/TestConfig.lean ====
section
/-! DEFINITION. The test configuration T of spec/95_test_vectors.md section 5 (decision D35) and the marked default hash SHA-256
(rule R8). Both are fixtures that let the operations be run on the spec's vectors. They describe no hardware, and no
operation, claim or step depends on them. -/

namespace Sys2Proof.Machine

/-- `HASH_T(b)`: the one byte (sum of the bytes of b) mod 256. -/
def hashT (b : List Byte) : Digest := ⟨BitVec.ofNat 8 (b.foldl (fun v x => v + x.toNat) 0), []⟩

/-- One of the four letters of entry i: the base-8 digit at bit `k`, as `a` to `h`. -/
def letterT (i : Index) (k : Nat) : Symbol := BitVec.ofNat 8 (0x61 + ((i.toNat >>> k) &&& 7))

/-- The Word "captain". -/
def captain : Word := ⟨[0x63, 0x61, 0x70, 0x74, 0x61, 0x69, 0x6e], by decide⟩

/-- `WORDLIST_T(i)`: four base-8 letters for 0..2046, "captain" at 2047. -/
def wordlistT (i : Index) : Word :=
  if i = 2047 then captain else ⟨[letterT i 9, letterT i 6, letterT i 3, letterT i 0], by simp⟩

theorem letterT_toNat (i : Index) (k : Nat) : (letterT i k).toNat = 0x61 + i.toNat / 2 ^ k % 8 := by
  have h : ∀ n : Nat, n &&& 7 = n % 8 := fun n => Nat.and_two_pow_sub_one_eq_mod n 3
  rw [letterT, BitVec.toNat_ofNat, h, Nat.shiftRight_eq_div_pow]
  omega

theorem wordlistT_injective (i j : Index) (h : wordlistT i = wordlistT j) : i = j := by
  unfold wordlistT captain at h
  split at h <;> split at h
  · simp [*]
  · simp at h
  · simp at h
  · simp only [Word.mk.injEq, List.cons.injEq, and_true] at h
    have h := And.imp (congrArg BitVec.toNat) (And.imp (congrArg BitVec.toNat)
      (And.imp (congrArg BitVec.toNat) (congrArg BitVec.toNat))) h
    simp only [letterT_toNat] at h
    apply BitVec.eq_of_toNat_eq
    omega

/-- Configuration T (D35). -/
def configT : Config where
  wordlist := wordlistT
  wordlist_injective := wordlistT_injective
  wordlist_nonempty := by
    intro i
    unfold wordlistT captain
    split <;> simp
  hash := hashT

/-! ## SHA-256

PRESUMED: the algorithm is general knowledge (FIPS 180-4) and stands in no rule of the spec, which marks SHA-256 as the default
`HASH` for its vectors only (R8, 93_implementation_defined.md G2; notes/assumptions/13.md). Words are Nats below 2^32. No table
of constants is written: they are computed from what they are, bits of roots of the first primes. -/

/-- The first primes, those below 312: there are 64 of them. -/
def shaPrimes : List Nat :=
  (List.range 312).filter fun n => 2 ≤ n && (List.range n).all fun d => d < 2 || n % d != 0

/-- The greatest r + x with x below 2^bits and (r + x)^k at most n, from the most significant bit of x down. -/
def rootFrom (k n : Nat) : Nat → Nat → Nat
  | 0, r => r
  | bits + 1, r => rootFrom k n bits (if (r + 2 ^ bits) ^ k ≤ n then r + 2 ^ bits else r)

/-- The first 32 bits of the fractional part of the k-th root of p. -/
def rootFraction (k p : Nat) : Nat := rootFrom k (p * 2 ^ (32 * k)) 36 0 % 2 ^ 32

/-- The constants of the 64 rounds: cube roots of the first 64 primes. -/
def shaRoundConstants : List Nat := shaPrimes.map (rootFraction 3)

/-- The state before the first block: square roots of the first eight primes. -/
def shaStart : List Nat := (shaPrimes.take 8).map (rootFraction 2)

/-- `last`, xored with x rotated right by each of the counts in turn. -/
def xorRotations (x last : Nat) (counts : List Nat) : Nat :=
  counts.foldl (fun acc n => acc ^^^ ((x ||| x <<< 32) >>> n) % 2 ^ 32) last

/-- `count` more words of the message schedule, put in front of the sixteen or more so far, the latest first. -/
def shaSchedule : Nat → List Nat → List Nat
  | 0, latest => latest
  | count + 1, latest =>
    let recent := xorRotations (latest.getD 1 0) (latest.getD 1 0 >>> 10) [17, 19]
    let old := xorRotations (latest.getD 14 0) (latest.getD 14 0 >>> 3) [7, 18]
    shaSchedule count ((latest.getD 15 0 + old + latest.getD 6 0 + recent) % 2 ^ 32 :: latest)

/-- One round on the eight working words, with `add` the sum of its constant and its schedule word. -/
def shaRound (st : List Nat) (add : Nat) : List Nat :=
  match st with
  | [a, b, c, d, e, f, g, h] =>
    let chosen := g ^^^ (e &&& (f ^^^ g))
    let majority := (a &&& (b ||| c)) ||| (b &&& c)
    let sum := h + add + chosen + xorRotations e 0 [6, 11, 25]
    [(sum + majority + xorRotations a 0 [2, 13, 22]) % 2 ^ 32, a, b, c, (d + sum) % 2 ^ 32, e, f, g]
  | _ => st

/-- The words of the digest of a message that is the one block of sixteen words. -/
def shaOneBlock (block : List Nat) : List Nat :=
  let adds := List.zipWith (· + ·) shaRoundConstants (shaSchedule 48 block.reverse).reverse
  List.zipWith (fun x y => (x + y) % 2 ^ 32) shaStart (adds.foldl shaRound shaStart)

/-- The digest's first byte of SHA-256 for a message of 4·n bytes, n ≤ 13, which is one block: enough for the 16 and 32 bytes
that `ent_bytes` gives. The other bytes are never read (R53). -/
def hashSha256 (b : List Byte) : Digest :=
  let words := (List.range (b.length / 4)).map fun k => fromBytes ((b.drop (4 * k)).take 4)
  let block := words ++ 0x80000000 :: List.replicate (14 - words.length) 0 ++ [8 * b.length]
  ⟨BitVec.ofNat 8 ((shaOneBlock block).headD 0 >>> 24), []⟩

/-- Configuration S's hash with configuration T's Wordlist; the vectors of spec/95_test_vectors.md section 3 are index-level. -/
def configS : Config := { configT with hash := hashSha256 }

end Sys2Proof.Machine
end

