-- ==== Sys2Proof/Machine/WordCodec.lean ====
section
/-! DEFINITION. The word-level codec and the check of a whole mnemonic: the pseudo-operations ENCODE and DECODE
(spec/43_wordlist.md rules R154, R155) and CHECK_WORDS with the presented suggestions (spec/45_fuzzy.md rules R194, R198). -/

namespace Sys2Proof.Machine

/-- `ENCODE.W s`: `ENC.W s`, then `WSTR` on each of its slots in order (R154). -/
def encodeWords (cfg : Config) (W : BitVec 10) (s : Value) : HostResult (List Word) := do
  let slots ← issueEnc cfg W s
  slots.mapM (issueWstr cfg)

/-- The slot a host presents for a Word: the index WIDX gives, or an `unk` slot for an absent word (R155). -/
def slotOfWord (cfg : Config) (w : Word) : Slot :=
  match issueWidx cfg w with
  | .ok slot => slot
  | .error _ => unknownSlot

/-- `DECODE words`: the count check before any lookup, `WIDX` on each word, then `DEC`; no word is altered (R155). -/
def decodeWords (cfg : Config) (words : List Word) : HostResult Tagged :=
  if words.length ≠ 12 ∧ words.length ≠ 24 then .error ⟨.invalidWordCount, 0⟩
  else issueDec cfg (words.map (slotOfWord cfg))

/-- How the host names the offending word of an `UnknownWord`: words[i] for the position i in `INFO` (R155, R224). -/
def offendingWord (words : List Word) (e : HostError) : Option Word :=
  if e.kind = .unknownWord then words[e.info.toNat]? else none

/-- One entry of CHECK_WORDS' report (R198). -/
structure WordReport where
  word : Word
  known : Bool
  suggestions : Option Suggestion
  deriving DecidableEq, Repr

/-- The entry for one word: `SUGGEST` is issued only for a word that `WIDX` does not find (R198). -/
def checkWord (cfg : Config) (w : Word) : WordReport :=
  match issueWidx cfg w with
  | .ok _ => ⟨w, true, none⟩
  | .error _ => ⟨w, false, (issueSuggest cfg w).toOption⟩

/-- `CHECK_WORDS words`: one entry per input word, in order, for a list of any length (R198). -/
def checkWords (cfg : Config) (words : List Word) : List WordReport := words.map (checkWord cfg)

/-- The suggestions a host presents: one when the two coincide, both when they differ, the prefix match first (R194). -/
def presented (s : Suggestion) : List Index :=
  match s.prefixMatch with
  | none => [s.nearestMatch]
  | some p => if p = s.nearestMatch then [s.nearestMatch] else [p, s.nearestMatch]

end Sys2Proof.Machine
end

