-- ==== Sys2Proof/Safety.lean ====
section
/-! DEFINITION. The terms that claims about the machine use: what a response of the block may be (a safe run gives no other), the
invariant of State, the results of ADD and SUB as functions, and the single-character edits that edit distance counts. -/

namespace Sys2Proof.Machine

/-- What a response of the block may be. An error is one of the six kinds the block raises, with `INFO` the position 0..23 for
`UnknownWord` and 0 otherwise (R221). A value lies in [0, 2^`RESW`) with `RESW` 128 or 256 (R94, R136). `NWOUT` counts the
slots and is at most 24, every output slot has `unk` = 0 (R29, R115, R195), and `PFXV` is 1 exactly when there are two
suggestions (R190). A Word has 1 to 31 symbols and `WLENOUT` counts them (R30, R151). -/
def Response.Safe : Response → Prop
  | .error kind info =>
    kind ≠ .insufficientShares ∧ info.toNat < 24 ∧ (kind ≠ .unknownWord → info = 0)
  | .ok (.value res resw) => (resw = 128 ∨ resw = 256) ∧ res.toNat < 2 ^ resw.toNat
  | .ok (.slots nwout wout) =>
    nwout.toNat = wout.length ∧ (nwout = 1 ∨ nwout = 12 ∨ nwout = 24) ∧ ∀ s ∈ wout, slotUnk s = false
  | .ok (.word wlenout chout) => wlenout.toNat = chout.length ∧ 1 ≤ chout.length
  | .ok (.suggestion pfxv nwout wout) =>
    nwout.toNat = wout.length ∧ ((pfxv = 1 ∧ nwout = 2) ∨ (pfxv = 0 ∧ nwout = 1)) ∧ ∀ s ∈ wout, slotUnk s = false

/-- The invariant of State: the response on the response ports, where one has been given, is one the block may give. -/
def State.Inv (s : State) : Prop := ∀ r, s.response = some r → r.Safe

/-- The value a step answers to the request `req`: `RES` of the response, where it is Ok and has one. -/
def resOf (req : Request) : Option Value :=
  match step { State.reset with request := req } with
  | .next t => t.response.bind Response.res
  | .fault _ => none
  | .refused _ => none

/-- `add`: the Ok result of ADD at width W (R97). -/
def addOf (W : Nat) (a b : Value) : Option Value := resOf (valueRequest (.add W) a b)

/-- `sub`: the Ok result of SUB at width W (R97). -/
def subOf (W : Nat) (a b : Value) : Option Value := resOf (valueRequest (.sub W) a b)

/-- One single-character operation: an insertion, a deletion or a substitution (R15, R192). -/
inductive OneEdit : List Symbol → List Symbol → Prop where
  | insert (p q : List Symbol) (c : Symbol) : OneEdit (p ++ q) (p ++ c :: q)
  | delete (p q : List Symbol) (c : Symbol) : OneEdit (p ++ c :: q) (p ++ q)
  | substitute (p q : List Symbol) (c d : Symbol) : OneEdit (p ++ c :: q) (p ++ d :: q)

/-- n single-character operations in a row. -/
inductive Edits : Nat → List Symbol → List Symbol → Prop where
  | none (u : List Symbol) : Edits 0 u u
  | more {n : Nat} {u v w : List Symbol} : OneEdit u v → Edits n v w → Edits (n + 1) u w

end Sys2Proof.Machine
end

