-- ==== Sys2Proof/Certificates/Slice0/Obligations.lean ====
section
/-! DEFINITION. The statements for the provers. Each docstring names the rule of spec/ it formalises. A statement about `exec` or
`step` holds for whatever Wordlist and hash `Config.platform` has; a statement about `issue` or a pseudo-operation is made for
every configuration. -/

open Sys2Proof Sys2Proof.Machine

/-! ## The command word -/

/-- Every well-formed instruction, with every operand, decodes from its own command word (R61, R62). -/
def Obligations.DecodeOfEncode : Prop :=
  ∀ i : Instr, i.WellFormed → decode (encode i) = .ok i

/-- R62 (with the field places of R61): a command word w selects a row when w & 0xF800000F is the row's `OP`, the operation of
the row is that of the command with the fields of the word as its operands, and the reserved rows are answered with
`IllegalCommand`. -/
def Obligations.CommandWordSelectsRow : Prop :=
  (∀ w : BitVec 32,
    (w &&& 0xF800000F#32 = 1#32 → decode w = .ok (.add (w.extractLsb' 4 10).toNat)) ∧
    (w &&& 0xF800000F#32 = 2#32 → decode w = .ok (.sub (w.extractLsb' 4 10).toNat)) ∧
    (w &&& 0xF800000F#32 = 3#32 → decode w = .ok (.enc (w.extractLsb' 4 10).toNat)) ∧
    (w &&& 0xF800000F#32 = 4#32 → decode w = .ok (.dec (w.extractLsb' 14 8).toNat)) ∧
    (w &&& 0xF800000F#32 = 5#32 → decode w = .ok .wstr) ∧
    (w &&& 0xF800000F#32 = 6#32 → decode w = .ok (.widx (w.extractLsb' 22 5).toNat)) ∧
    (w &&& 0xF800000F#32 = 7#32 → decode w = .ok (.suggest (w.extractLsb' 22 5).toNat)) ∧
    (∀ i, decode w = .ok i → 1 ≤ (w &&& 0xF800000F#32).toNat ∧ (w &&& 0xF800000F#32).toNat ≤ 7)) ∧
  (∀ s : State, (s.request.cmd &&& 0xF800000F#32 = 0#32 ∨ 8 ≤ (s.request.cmd &&& 0xF800000F#32).toNat) →
    step s = .next { s with response := some (.error .illegalCommand 0) })

/-- The encoder writes back the word that was decoded, but for the fields the operation does not read, which it writes as 0
(R61, R63). -/
def Obligations.EncodeOfDecode : Prop :=
  ∀ (w : BitVec 32) (i : Instr), decode w = .ok i →
    i.WellFormed ∧
    encode i = w &&&
      match i with
      | .add _ | .sub _ | .enc _ => 0x00003FFF#32
      | .dec _ => 0x003FC00F#32
      | .wstr => 0x0000000F#32
      | .widx _ | .suggest _ => 0x07C0000F#32

/-- The words of R67 (marked [derived: …] in the spec), each read as the command it stands for. R67 calls the last three words
illegal and no more: which reason the decoder names for each, a reserved `OP` or a non-zero `RSV`, is the model's choice
(DESIGN CHOICE, notes/assumptions/17.md). -/
def Obligations.CommonCommandWords : Prop :=
  decode 0x00000801#32 = .ok (.add 128) ∧ decode 0x00000802#32 = .ok (.sub 128) ∧
  decode 0x00000803#32 = .ok (.enc 128) ∧ decode 0x00001001#32 = .ok (.add 256) ∧
  decode 0x00001002#32 = .ok (.sub 256) ∧ decode 0x00001003#32 = .ok (.enc 256) ∧
  decode 0x00030004#32 = .ok (.dec 12) ∧ decode 0x00060004#32 = .ok (.dec 24) ∧
  decode 0x00000005#32 = .ok .wstr ∧ decode 0x01C00006#32 = .ok (.widx 7) ∧
  decode 0x01800007#32 = .ok (.suggest 6) ∧ decode 0x00000C03#32 = .ok (.enc 192) ∧
  decode 0x0002C004#32 = .ok (.dec 11) ∧ decode 0x00034004#32 = .ok (.dec 13) ∧
  decode 0x00000000#32 = .error (.reservedOp 0) ∧ decode 0x00000008#32 = .error (.reservedOp 8) ∧
  decode 0x08000001#32 = .error (.reservedField 1)

/-! ## The step -/

/-- A step runs the decoded instruction, with nothing around it (R14, R25). -/
def Obligations.StepRunsDecodedInstruction : Prop :=
  ∀ (s : State) (i : Instr), decode s.request.cmd = .ok i → step s = exec i s

/-- R65: a command word with `RSV` ≠ 0, or with `OP` = 0 or 8..15, is answered with `IllegalCommand`, whatever the other ports
hold, and no other command word is. -/
def Obligations.IllegalCommandAnswered : Prop :=
  ∀ s : State,
    let illegal := s.request.cmd.extractLsb' 27 5 ≠ 0 ∨ s.request.cmd.extractLsb' 0 4 = 0 ∨
      8 ≤ (s.request.cmd.extractLsb' 0 4).toNat
    (illegal → step s = .next { s with response := some (.error .illegalCommand 0) }) ∧
    (¬ illegal → ∀ info, step s ≠ .next { s with response := some (.error .illegalCommand info) })

/-- One request gives exactly one response: every step answers, the response is that of the pure transaction under the
block's configuration, and nothing else of the state changes (R14, R20, R258). -/
def Obligations.EveryRequestIsAnswered : Prop :=
  ∀ s : State, step s = .next { s with response := some (issue Config.platform s.request) }

/-- The frame of every instruction: it gives a next state, and the request ports are unchanged (R20, R27). -/
def Obligations.InstructionsLeaveRequestPorts : Prop :=
  ∀ (i : Instr) (s : State), ∃ r, exec i s = .next { s with response := some r }

/-- R48: (a) any two requests may be issued in either order, or to two copies of the block (s and s', each with a past of its
own), with the same two responses; (b) repeating a request repeats its
response, and changes nothing; (c) a Wordlist read always returns the configured entry. -/
def Obligations.ResponsesDoNotDependOnOrder : Prop :=
  (∀ (s s' t₁ t₁₂ t₂ t₂₁ : State) (r₁ r₂ : Request),
    step { s with request := r₁ } = .next t₁ → step { t₁ with request := r₂ } = .next t₁₂ →
    step { s' with request := r₂ } = .next t₂ → step { t₂ with request := r₁ } = .next t₂₁ →
    t₁₂.response = t₂.response ∧ t₂₁.response = t₁.response) ∧
  (∀ s t : State, step s = .next t → step t = .next t) ∧
  (∀ (s : State) (i : Index), s.request.cmd = 0x00000005#32 → s.request.win[0] = knownSlot i →
    ∃ t, step s = .next t ∧ t.response.bind Response.chout = some (Config.platform.wordlist i).symbols)

/-- R63: two requests that agree on the command fields and the request ports of the operation's row get the same response,
whatever the rest of the request holds. -/
def Obligations.UnusedFieldsAndPortsIgnored : Prop :=
  ∀ s s' : State,
    let w := s.request.cmd
    let w' := s'.request.cmd
    let same := ∃ r, step s = .next { s with response := some r } ∧ step s' = .next { s' with response := some r }
    w &&& 0xF800000F#32 = w' &&& 0xF800000F#32 →
    ((w &&& 0xF800000F#32 = 1#32 ∨ w &&& 0xF800000F#32 = 2#32) → w.extractLsb' 4 10 = w'.extractLsb' 4 10 →
      s.request.opa = s'.request.opa → s.request.opb = s'.request.opb → same) ∧
    (w &&& 0xF800000F#32 = 3#32 → w.extractLsb' 4 10 = w'.extractLsb' 4 10 → s.request.opa = s'.request.opa → same) ∧
    (w &&& 0xF800000F#32 = 4#32 → w.extractLsb' 14 8 = w'.extractLsb' 14 8 →
      ((w.extractLsb' 14 8 = 12 ∨ w.extractLsb' 14 8 = 24) →
        ∀ k : Fin 24, k.val < (w.extractLsb' 14 8).toNat → s.request.win[k] = s'.request.win[k]) → same) ∧
    (w &&& 0xF800000F#32 = 5#32 → s.request.win[0] = s'.request.win[0] → same) ∧
    ((w &&& 0xF800000F#32 = 6#32 ∨ w &&& 0xF800000F#32 = 7#32) → w.extractLsb' 22 5 = w'.extractLsb' 22 5 →
      (∀ k : Fin 31, k.val < (w.extractLsb' 22 5).toNat → s.request.chin[k] = s'.request.chin[k]) → same)

/-- What each operation can answer: the ports of its row on Ok (R63) and its own error kinds (R221, R230). -/
def Obligations.ResponsesPerOperation : Prop :=
  ∀ (i : Instr) (s : State), ∃ r, exec i s = .next { s with response := some r } ∧
    match i with
    | .add _ | .sub _ =>
      (∃ res resw, r = .ok (.value res resw)) ∨ r = .error .unsupportedBitWidth 0 ∨ r = .error .bitWidthMismatch 0
    | .enc _ =>
      (∃ nwout wout, r = .ok (.slots nwout wout)) ∨ r = .error .unsupportedBitWidth 0 ∨ r = .error .bitWidthMismatch 0
    | .dec _ =>
      (∃ res resw, r = .ok (.value res resw)) ∨ r = .error .invalidWordCount 0 ∨
        (∃ k, k.toNat < 24 ∧ r = .error .unknownWord k) ∨ r = .error .invalidChecksum 0
    | .wstr => (∃ wlenout chout, r = .ok (.word wlenout chout)) ∨ r = .error .unknownWord 0
    | .widx _ => (∃ slot, r = .ok (.slots 1 [slot])) ∨ r = .error .unknownWord 0
    | .suggest _ => ∃ pfxv nwout wout, r = .ok (.suggestion pfxv nwout wout)

/-- R221 on the ports: `STATUS` of a response is 0 to 7 and never 4, `INFO` is 0 but for `UnknownWord` (3), where it is a
position 0..23, and an error has `STATUS` ≠ 0 and no data port (R220). -/
def Obligations.StatusAndInfoCodes : Prop :=
  ∀ (s t : State) (r : Response), step s = .next t → t.response = some r →
    r.status.toNat ≤ 7 ∧ r.status ≠ 4 ∧ (r.status ≠ 3 → r.info = 0) ∧ r.info.toNat < 24 ∧
    (r.status ≠ 0 → r.res = none ∧ r.resw = none ∧ r.nwout = none ∧ r.wout = none ∧ r.pfxv = none ∧
      r.wlenout = none ∧ r.chout = none) ∧
    (r.status = 0 → ∃ p, r = .ok p)

/-- Every step keeps the invariant of State: the response on the ports is one the block may give
(R29, R94, R115, R136, R195, R221). -/
def Obligations.StepKeepsResponsesSafe : Prop :=
  ∀ s t : State, s.Inv → step s = .next t → t.Inv

/-- The invariant holds after reset. -/
def Obligations.ResetResponsesSafe : Prop := State.reset.Inv

/-- Reset: no response has been given, a reset leaves the request ports, and a request issued after a reset is answered as it
would have been before it (R36, R250). -/
def Obligations.ResetChangesNoAnswer : Prop :=
  State.reset.response = none ∧
  ∀ s : State, s.resetBlock.response = none ∧ s.resetBlock.request = s.request ∧ step s.resetBlock = step s

/-! ## ADD and SUB -/

/-- R90: ADD, its encoding, its errors (the width first, then the range of both operands) and its result: (`OPA` + `OPB`) mod
2^W on `RES` and W on `RESW`. -/
def Obligations.AddCompletes : Prop :=
  (∀ w : BitVec 32, w &&& 0xF800000F#32 = 1#32 → decode w = .ok (.add (w.extractLsb' 4 10).toNat)) ∧
  ∀ (s : State) (W : Nat),
    (W ≠ 128 → W ≠ 256 → exec (.add W) s = .next { s with response := some (.error .unsupportedBitWidth 0) }) ∧
    ((W = 128 ∨ W = 256) → (2 ^ W ≤ s.request.opa.toNat ∨ 2 ^ W ≤ s.request.opb.toNat) →
      exec (.add W) s = .next { s with response := some (.error .bitWidthMismatch 0) }) ∧
    ((W = 128 ∨ W = 256) → s.request.opa.toNat < 2 ^ W → s.request.opb.toNat < 2 ^ W →
      exec (.add W) s = .next { s with response := some (.ok (.value
        (BitVec.ofNat 256 ((s.request.opa.toNat + s.request.opb.toNat) % 2 ^ W)) (BitVec.ofNat 10 W))) })

/-- R91: SUB, its encoding, its errors (the width first, then the range of both operands) and its result: (`OPA` − `OPB`) mod
2^W, never negative, on `RES` and W on `RESW`. -/
def Obligations.SubCompletes : Prop :=
  (∀ w : BitVec 32, w &&& 0xF800000F#32 = 2#32 → decode w = .ok (.sub (w.extractLsb' 4 10).toNat)) ∧
  ∀ (s : State) (W : Nat),
    (W ≠ 128 → W ≠ 256 → exec (.sub W) s = .next { s with response := some (.error .unsupportedBitWidth 0) }) ∧
    ((W = 128 ∨ W = 256) → (2 ^ W ≤ s.request.opa.toNat ∨ 2 ^ W ≤ s.request.opb.toNat) →
      exec (.sub W) s = .next { s with response := some (.error .bitWidthMismatch 0) }) ∧
    ((W = 128 ∨ W = 256) → s.request.opa.toNat < 2 ^ W → s.request.opb.toNat < 2 ^ W →
      exec (.sub W) s = .next { s with response := some (.ok (.value
        (BitVec.ofInt 256 (((s.request.opa.toNat : Int) - s.request.opb.toNat) % 2 ^ W)) (BitVec.ofNat 10 W))) })

/-- R94: an Ok response of ADD or SUB has operands in [0, 2^W) and `RES` below 2^`RESW`. -/
def Obligations.ArithmeticRange : Prop :=
  ∀ (s : State) (W : Nat) (i : Instr) (res : Value) (resw : BitVec 10), (i = .add W ∨ i = .sub W) →
    exec i s = .next { s with response := some (.ok (.value res resw)) } →
    s.request.opa.toNat < 2 ^ W ∧ s.request.opb.toNat < 2 ^ W ∧ resw.toNat = W ∧ res.toNat < 2 ^ resw.toNat

/-- A W-bit adder with its carry-out dropped, and a W-bit two's-complement subtractor a + (2^W − 1 − b) + 1 with its carry-out
dropped, compute what ADD and SUB answer (R93, marked [derived: …] in the spec). -/
def Obligations.CarryDroppedDatapath : Prop :=
  ∀ (W : Nat) (a b : Value), (W = 128 ∨ W = 256) → a.toNat < 2 ^ W → b.toNat < 2 ^ W →
    addOf W a b = some ((BitVec.ofNat W a.toNat + BitVec.ofNat W b.toNat).setWidth 256) ∧
    subOf W a b = some ((BitVec.ofNat W a.toNat + ~~~(BitVec.ofNat W b.toNat) + 1).setWidth 256)

/-- R97 (marked [derived: …] in the spec), its ten laws of `add` and `sub` at one width. -/
def Obligations.ArithmeticLaws : Prop :=
  (∀ (W : Nat) (a b c : Value), (W = 128 ∨ W = 256) → a.toNat < 2 ^ W → b.toNat < 2 ^ W → c.toNat < 2 ^ W →
    addOf W a b = addOf W b a ∧
    (∃ x y, addOf W a b = some x ∧ addOf W b c = some y ∧ addOf W x c = addOf W a y) ∧
    addOf W a 0 = some a ∧ subOf W a 0 = some a ∧
    subOf W a a = some 0 ∧
    (addOf W a b).bind (fun x => subOf W x b) = some a ∧ (subOf W a b).bind (fun x => addOf W x b) = some a ∧
    subOf W a b = (subOf W 0 b).bind (fun x => addOf W a x) ∧
    (subOf W a b).bind (fun x => subOf W 0 x) = subOf W b a ∧
    (subOf W a b).bind (fun x => subOf W a x) = some b ∧
    (∃ d, addOf W a a = some d ∧ d.toNat % 2 = 0) ∧
    (addOf W a a = addOf W b b ↔
      b = a ∨ b.toNat = a.toNat + 2 ^ (W - 1) ∨ a.toNat = b.toNat + 2 ^ (W - 1))) ∧
  subOf 128 0 1 = some (BitVec.ofNat 256 (2 ^ 128 - 1)) ∧ subOf 256 0 1 = some (BitVec.ofNat 256 (2 ^ 256 - 1))

/-- Two 128-bit values added at the stated width 256 pass the checks and give another value than at 128 whenever the 128-bit
operation wraps (R254). -/
def Obligations.WrongWidthGivesWrongSum : Prop :=
  ∀ a b : Value, a.toNat < 2 ^ 128 → b.toNat < 2 ^ 128 → 2 ^ 128 ≤ a.toNat + b.toNat →
    ∃ x y, addOf 128 a b = some x ∧ addOf 256 a b = some y ∧ x ≠ y

/-! ## ENC -/

/-- R110: ENC, its encoding, its errors (R116: the width first, then the range) and its result: the NW indices of the code word
V = s · 2^CSW + c, with c the first CSW bits of the first byte of the digest of the W/8 big-endian bytes of s (R111 to R115). -/
def Obligations.EncCompletes : Prop :=
  (∀ w : BitVec 32, w &&& 0xF800000F#32 = 3#32 → decode w = .ok (.enc (w.extractLsb' 4 10).toNat)) ∧
  ∀ (s : State) (W : Nat),
    (W ≠ 128 → W ≠ 256 → exec (.enc W) s = .next { s with response := some (.error .unsupportedBitWidth 0) }) ∧
    ((W = 128 ∨ W = 256) → 2 ^ W ≤ s.request.opa.toNat →
      exec (.enc W) s = .next { s with response := some (.error .bitWidthMismatch 0) }) ∧
    ((W = 128 ∨ W = 256) → s.request.opa.toNat < 2 ^ W →
      let x := s.request.opa.toNat
      let bytes := (List.range (W / 8)).map fun i => BitVec.ofNat 8 (x / 2 ^ (8 * (W / 8 - 1 - i)))
      let c := (Config.platform.hash bytes).byte0.toNat / 2 ^ (8 - W / 32)
      let V := x * 2 ^ (W / 32) + c
      let NW := (W + W / 32) / 11
      c < 2 ^ (W / 32) ∧
      exec (.enc W) s = .next { s with response := some (.ok (.slots (BitVec.ofNat 8 NW)
        ((List.range NW).map fun i => knownSlot (BitVec.ofNat 11 (V / 2 ^ (11 * (NW - 1 - i))))))) })

/-- R72 (marked [derived: …] in the spec): format M128. Slot i is s[127−11i : 117−11i] for i = 0..10 and slot 11 is
s[6:0] ‖ c[3:0], with c the first four bits of the digest of the sixteen big-endian bytes of s (R111, R112). -/
def Obligations.EncLayout128 : Prop :=
  ∀ s : State, s.request.opa.toNat < 2 ^ 128 →
    let x := s.request.opa
    let c : BitVec 4 := (Config.platform.hash
      ((List.range 16).map fun i => x.extractLsb' (8 * (15 - i)) 8)).byte0.extractLsb' 4 4
    exec (.enc 128) s = .next { s with response := some (.ok (.slots 12
      (((List.range 11).map fun i => knownSlot (x.extractLsb' (117 - 11 * i) 11)) ++
        [BitVec.setWidth 12 (x.extractLsb' 0 7 ++ c)]))) }

/-- R73 (marked [derived: …] in the spec): format M256. Slot i is s[255−11i : 245−11i] for i = 0..22 and slot 23 is
s[2:0] ‖ c[7:0], with c the first eight bits of the digest of the thirty-two big-endian bytes of s (R111, R112). -/
def Obligations.EncLayout256 : Prop :=
  ∀ s : State,
    let x := s.request.opa
    let c : BitVec 8 := (Config.platform.hash
      ((List.range 32).map fun i => x.extractLsb' (8 * (31 - i)) 8)).byte0
    exec (.enc 256) s = .next { s with response := some (.ok (.slots 24
      (((List.range 23).map fun i => knownSlot (x.extractLsb' (245 - 11 * i) 11)) ++
        [BitVec.setWidth 12 (x.extractLsb' 0 3 ++ c)]))) }

/-- Injectivity: at one width two different Secrets give different index sequences, already in the entropy part, whatever the
hash is (R118, marked [derived: …] in the spec). -/
def Obligations.EncInjective : Prop :=
  ∀ (s s' : State) (W : Nat) (n n' : BitVec 8) (m m' : List Slot),
    exec (.enc W) s = .next { s with response := some (.ok (.slots n m)) } →
    exec (.enc W) s' = .next { s' with response := some (.ok (.slots n' m')) } →
    m.dropLast = m'.dropLast →
    (m.getLast?.map fun x : Slot => x >>> (W / 32)) = (m'.getLast?.map fun x : Slot => x >>> (W / 32)) →
    s.request.opa = s'.request.opa

/-- The byte form of a Secret: W/8 bytes, byte i being (s >> (8 · (W/8 − 1 − i))) & 0xFF, and `from_bytes`, its inverse
(R41). -/
def Obligations.ByteFormBigEndian : Prop :=
  (∀ W s : Nat, (W = 128 ∨ W = 256) → s < 2 ^ W →
    (entBytes s W).length = W / 8 ∧
    (∀ i < W / 8, (entBytes s W)[i]? = some (BitVec.ofNat 8 (s / 2 ^ (8 * (W / 8 - 1 - i))))) ∧
    fromBytes (entBytes s W) = s) ∧
  (∀ b : List Byte, entBytes (fromBytes b) (8 * b.length) = b ∧
    fromBytes b = ∑ k ∈ Finset.range b.length, (b.getD k 0).toNat * 2 ^ (8 * (b.length - 1 - k)))

/-! ## DEC -/

/-- R131: DEC takes the count from `NWORDS` and no other field; the count is checked before anything else, whatever the slots
hold; the width comes from the count alone, and `UnsupportedBitWidth` cannot arise. -/
def Obligations.DecCountGivesWidth : Prop :=
  (∀ w : BitVec 32, w &&& 0xF800000F#32 = 4#32 → decode w = .ok (.dec (w.extractLsb' 14 8).toNat)) ∧
  ∀ (s : State) (n : Nat),
    (n ≠ 12 → n ≠ 24 → exec (.dec n) s = .next { s with response := some (.error .invalidWordCount 0) }) ∧
    (∀ res resw, exec (.dec n) s = .next { s with response := some (.ok (.value res resw)) } →
      (n = 12 ∧ resw = 128) ∨ (n = 24 ∧ resw = 256)) ∧
    (∀ info, exec (.dec n) s ≠ .next { s with response := some (.error .unsupportedBitWidth info) })

/-- R132: the first slot with `unk` = 1 is reported by its position, before any checksum is looked at. -/
def Obligations.DecReportsFirstUnknown : Prop :=
  ∀ (s : State) (n : Nat) (k : Fin 24), (n = 12 ∨ n = 24) → k.val < n →
    slotUnk s.request.win[k] = true → (∀ j : Fin 24, j < k → slotUnk s.request.win[j] = false) →
    exec (.dec n) s = .next { s with response := some (.error .unknownWord (BitVec.ofNat 8 k.val)) }

/-- R133 to R136: past the two first checks DEC rebuilds V from the indices, slot 0 most significant, splits it into entropy
and checksum, and answers the entropy with its width exactly when the checksum is that of the entropy. -/
def Obligations.DecVerifiesChecksum : Prop :=
  ∀ (s : State) (n W : Nat), ((n = 12 ∧ W = 128) ∨ (n = 24 ∧ W = 256)) →
    (∀ j : Fin 24, j.val < n → slotUnk s.request.win[j] = false) →
    let V := ∑ j : Fin 24, if j.val < n then (slotIdx s.request.win[j]).toNat * 2 ^ (11 * (n - 1 - j.val)) else 0
    let x := V / 2 ^ (W / 32)
    let c := V % 2 ^ (W / 32)
    x < 2 ^ W ∧
    (c = checksum Config.platform x W →
      exec (.dec n) s = .next { s with response := some (.ok (.value (BitVec.ofNat 256 x) (BitVec.ofNat 10 W))) }) ∧
    (c ≠ checksum Config.platform x W →
      exec (.dec n) s = .next { s with response := some (.error .invalidChecksum 0) })

/-- R138: the round trip. If ENC answers Ok with the slots m, DEC of m answers Ok with the same Secret and width. -/
def Obligations.DecOfEnc : Prop :=
  ∀ (s t : State) (W : Nat) (nwout : BitVec 8) (m : List Slot),
    exec (.enc W) s = .next { s with response := some (.ok (.slots nwout m)) } →
    t.request.win.toList.take m.length = m →
    exec (.dec m.length) t = .next { t with response := some (.ok (.value s.request.opa (BitVec.ofNat 10 W))) }

/-- R139 (marked [derived: …] in the spec): the converse. If DEC of n slots answers Ok with (W, x), ENC of x at W answers Ok
with exactly those slots. -/
def Obligations.EncOfDec : Prop :=
  ∀ (s t : State) (n : Nat) (resw : BitVec 10),
    exec (.dec n) t = .next { t with response := some (.ok (.value s.request.opa resw)) } →
    exec (.enc resw.toNat) s =
      .next { s with response := some (.ok (.slots (BitVec.ofNat 8 n) (t.request.win.toList.take n))) }

/-- R140 (marked [derived: …] in the spec): a change confined to the checksum bits of an accepted sequence is always caught:
`InvalidChecksum`. -/
def Obligations.ChecksumChangeIsCaught : Prop :=
  ∀ (s t : State) (n : Nat) (res : Value) (resw : BitVec 10) (flip : Slot),
    exec (.dec n) s = .next { s with response := some (.ok (.value res resw)) } →
    (∀ k : Fin 24, k.val + 1 < n → t.request.win[k] = s.request.win[k]) →
    (∀ k : Fin 24, k.val + 1 = n → t.request.win[k] = s.request.win[k] ^^^ flip) →
    flip ≠ 0 → flip.toNat < 2 ^ (resw.toNat / 32) →
    exec (.dec n) t = .next { t with response := some (.error .invalidChecksum 0) }

/-! ## The Wordlist -/

/-- R151: WSTR, its encoding, its error and its result. -/
def Obligations.WstrReadsWordlist : Prop :=
  (∀ w : BitVec 32, w &&& 0xF800000F#32 = 5#32 → decode w = .ok .wstr) ∧
  ∀ s : State,
    (slotUnk s.request.win[0] = true → exec .wstr s = .next { s with response := some (.error .unknownWord 0) }) ∧
    (slotUnk s.request.win[0] = false →
      let e := (Config.platform.wordlist (slotIdx s.request.win[0])).symbols
      exec .wstr s = .next { s with response := some (.ok (.word (BitVec.ofNat 5 e.length) e)) })

/-- R152: WIDX, its encoding, its result and its error. -/
def Obligations.WidxFindsWord : Prop :=
  (∀ w : BitVec 32, w &&& 0xF800000F#32 = 6#32 → decode w = .ok (.widx (w.extractLsb' 22 5).toNat)) ∧
  ∀ (s : State) (L : Nat),
    (∀ i, (Config.platform.wordlist i).symbols = s.request.chin.toList.take L →
      exec (.widx L) s = .next { s with response := some (.ok (.slots 1 [knownSlot i])) }) ∧
    ((∀ i, (Config.platform.wordlist i).symbols ≠ s.request.chin.toList.take L) →
      exec (.widx L) s = .next { s with response := some (.error .unknownWord 0) })

/-- R153 (marked [derived: …] in the spec): the two lookups are inverse, for every configuration. -/
def Obligations.LookupsAreInverse : Prop :=
  ∀ (cfg : Config) (i : Index),
    (∃ w, issueWstr cfg (knownSlot i) = .ok w ∧ issueWidx cfg w = .ok (knownSlot i)) ∧
    (∀ w, issueWidx cfg w = .ok (knownSlot i) → issueWstr cfg (knownSlot i) = .ok w)

/-! ## SUGGEST -/

/-- R190, R191, R193: SUGGEST, its encoding and its result. n is the first entry at minimum edit distance. P is the prefix
match: the one entry that has the Word as a strict prefix, where one entry alone has it, and none otherwise. -/
def Obligations.SuggestCompletes : Prop :=
  (∀ w : BitVec 32, w &&& 0xF800000F#32 = 7#32 → decode w = .ok (.suggest (w.extractLsb' 22 5).toNat)) ∧
  ∀ (s : State) (L : Nat),
    let u := s.request.chin.toList.take L
    let e := fun i : Index => (Config.platform.wordlist i).symbols
    let hasPrefix := fun i : Index => u.length < (e i).length ∧ u = (e i).take u.length
    ∃ (n : Index) (P : Option Index),
      (∀ i, lev u (e n) ≤ lev u (e i)) ∧ (∀ i, i.toNat < n.toNat → lev u (e n) < lev u (e i)) ∧
      (∀ p, P = some p ↔ ∀ i, hasPrefix i ↔ i = p) ∧
      exec (.suggest L) s = .next { s with response := some (.ok
        (match P with
        | some p => .suggestion 1 2 [knownSlot n, knownSlot p]
        | none => .suggestion 0 1 [knownSlot n])) }

/-- `lev(u, v)` is the minimum number of single-character insertions, deletions and substitutions that turn u into v
(R15, R192). -/
def Obligations.LevIsLeastEdits : Prop :=
  ∀ u v : List Symbol, Edits (lev u v) u v ∧ ∀ n, Edits n u v → lev u v ≤ n

/-- The recurrence of the edit-distance table, on the prefixes of the two Words (R192). -/
def Obligations.LevRecurrence : Prop :=
  (∀ v : List Symbol, lev [] v = v.length) ∧ (∀ u : List Symbol, lev u [] = u.length) ∧
  ∀ (u v : List Symbol) (a b : Symbol),
    lev (u ++ [a]) (v ++ [b]) =
      min (min (lev u (v ++ [b]) + 1) (lev (u ++ [a]) v + 1)) (lev u v + if a = b then 0 else 1)

/-- The facts of R192 about edit distance: 0 exactly on equal Words, symmetry, the bounds by the lengths, and the distance from
a prefix. -/
def Obligations.LevFacts : Prop :=
  ∀ u v : List Symbol,
    (lev u v = 0 ↔ u = v) ∧ lev u v = lev v u ∧
    u.length - v.length ≤ lev u v ∧ v.length - u.length ≤ lev u v ∧ lev u v ≤ max u.length v.length ∧
    (u <+: v → lev u v = v.length - u.length)

/-- R196 (a) and (b) (marked [derived: …] in the spec): the empty Word gets the first of the shortest entries and no prefix
match; a Word that is an entry gets itself as the nearest match, and a prefix match exactly when one other entry alone has it as
a strict prefix. -/
def Obligations.SuggestCornerCases : Prop :=
  let e := fun i : Index => (Config.platform.wordlist i).symbols
  (∀ s : State, ∃ n : Index, (∀ i, (e n).length ≤ (e i).length) ∧
    (∀ i, i.toNat < n.toNat → (e n).length < (e i).length) ∧
    exec (.suggest 0) s = .next { s with response := some (.ok (.suggestion 0 1 [knownSlot n])) }) ∧
  (∀ (s : State) (L : Nat) (k : Index), s.request.chin.toList.take L = e k →
    ∃ P : Option Index, (∀ p, P = some p ↔ ∀ i, (i ≠ k ∧ e k <+: e i) ↔ i = p) ∧
      exec (.suggest L) s = .next { s with response := some (.ok
        (match P with
        | some p => .suggestion 1 2 [knownSlot k, knownSlot p]
        | none => .suggestion 0 1 [knownSlot k])) })

/-- R194: what the host presents: one suggestion when there is no prefix match or the two coincide, both when they differ, the
prefix match first. -/
def Obligations.PresentedSuggestions : Prop :=
  ∀ n p : Index,
    presented ⟨none, n⟩ = [n] ∧ presented ⟨some n, n⟩ = [n] ∧ (p ≠ n → presented ⟨some p, n⟩ = [p, n])

/-- R198: CHECK_WORDS gives one entry per word, in order, for a list of any length: known with no suggestions for an entry of
the Wordlist, and otherwise unknown with what SUGGEST answers. -/
def Obligations.CheckWordsReports : Prop :=
  ∀ (cfg : Config) (words : List Word),
    (checkWords cfg words).length = words.length ∧
    ∀ (k : Nat) (w : Word), words[k]? = some w →
      ((∃ i, cfg.wordlist i = w) → (checkWords cfg words)[k]? = some ⟨w, true, none⟩) ∧
      ((∀ i, cfg.wordlist i ≠ w) → ∃ g, issueSuggest cfg w = .ok g ∧
        (checkWords cfg words)[k]? = some ⟨w, false, some g⟩)

/-! ## The word-level codec -/

/-- R156: the word-level round trip, for every configuration, every supported width and every Secret. -/
def Obligations.DecodeWordsOfEncodeWords : Prop :=
  ∀ (cfg : Config) (W : BitVec 10) (s : Value), (W = 128 ∨ W = 256) → s.toNat < 2 ^ W.toNat →
    ∃ words, encodeWords cfg W s = .ok words ∧ words.length = (W.toNat + W.toNat / 32) / 11 ∧
      decodeWords cfg words = .ok ⟨W, s⟩

/-- R155 (marked [derived: …] in the spec): DECODE. The count comes before any lookup; the first absent word is reported by its
position, by which the host names it; and a list of entries of the Wordlist gets the response of DEC to their indices. -/
def Obligations.DecodeWordsCases : Prop :=
  ∀ (cfg : Config) (words : List Word),
    (words.length ≠ 12 → words.length ≠ 24 → decodeWords cfg words = .error ⟨.invalidWordCount, 0⟩) ∧
    ((words.length = 12 ∨ words.length = 24) →
      (∀ (k : Nat) (w : Word), words[k]? = some w → (∀ i, cfg.wordlist i ≠ w) →
        (∀ (j : Nat) (v : Word), j < k → words[j]? = some v → ∃ i, cfg.wordlist i = v) →
        decodeWords cfg words = .error ⟨.unknownWord, BitVec.ofNat 8 k⟩ ∧
        offendingWord words ⟨.unknownWord, BitVec.ofNat 8 k⟩ = some w) ∧
      (∀ idxs : List Index, words = idxs.map cfg.wordlist →
        decodeWords cfg words = issueDec cfg (idxs.map knownSlot)))

/-! ## Splitting and joining -/

/-- R171: the splitting invariant, for every configuration: SPLIT gives B = (s − A) mod 2^W and C = (2A − s) mod 2^W; and of
any triple that satisfies both equations the secret is unique, s = A + B. -/
def Obligations.SplitInvariant : Prop :=
  ∀ (cfg : Config) (W : BitVec 10) (s a : Value), (W = 128 ∨ W = 256) → s.toNat < 2 ^ W.toNat → a.toNat < 2 ^ W.toNat →
    (∃ b c : Value, split cfg W s a = .ok ⟨a, b, c⟩ ∧
      (b.toNat : Int) = ((s.toNat : Int) - a.toNat) % 2 ^ W.toNat ∧
      (c.toNat : Int) = (2 * (a.toNat : Int) - s.toNat) % 2 ^ W.toNat) ∧
    (∀ b c : Value, (b.toNat : Int) = ((s.toNat : Int) - a.toNat) % 2 ^ W.toNat →
      (c.toNat : Int) = (2 * (a.toNat : Int) - s.toNat) % 2 ^ W.toNat →
      s.toNat = (a.toNat + b.toNat) % 2 ^ W.toNat)

/-- R179 (marked [derived: …] in the spec): each join computes its formula on any two in-range values of one width, with no
error. -/
def Obligations.JoinsComputeTheirFormulas : Prop :=
  ∀ (cfg : Config) (W : BitVec 10) (x y : Value), (W = 128 ∨ W = 256) → x.toNat < 2 ^ W.toNat → y.toNat < 2 ^ W.toNat →
    joinAB cfg W x y = .ok ⟨W, BitVec.ofInt 256 (((x.toNat : Int) + y.toNat) % 2 ^ W.toNat)⟩ ∧
    joinAC cfg W x y = .ok ⟨W, BitVec.ofInt 256 ((2 * (x.toNat : Int) - y.toNat) % 2 ^ W.toNat)⟩ ∧
    joinBC cfg W x y = .ok ⟨W, BitVec.ofInt 256 ((2 * (x.toNat : Int) + y.toNat) % 2 ^ W.toNat)⟩

/-- Join correctness: any two shares of a split, through JOIN, give back the secret and its width, whichever two are present and
whatever the hash and the Wordlist are (R175; R178, marked [derived: …] in the spec). -/
def Obligations.AnyTwoSharesRecoverSecret : Prop :=
  ∀ (cfg : Config) (W : BitVec 10) (s a : Value), (W = 128 ∨ W = 256) → s.toNat < 2 ^ W.toNat → a.toNat < 2 ^ W.toNat →
    ∃ k, split cfg W s a = .ok k ∧
      join cfg (some ⟨W, k.a⟩) (some ⟨W, k.b⟩) none = .ok ⟨W, s⟩ ∧
      join cfg (some ⟨W, k.a⟩) none (some ⟨W, k.c⟩) = .ok ⟨W, s⟩ ∧
      join cfg none (some ⟨W, k.b⟩) (some ⟨W, k.c⟩) = .ok ⟨W, s⟩ ∧
      join cfg (some ⟨W, k.a⟩) (some ⟨W, k.b⟩) (some ⟨W, k.c⟩) = .ok ⟨W, s⟩

/-- What single shares are when s is fixed and A ranges over [0, 2^W): B takes every value exactly once, C has the parity of s,
and each value of that parity is C for exactly two values of A, which differ by 2^(W−1) (R178, marked [derived: …] in the spec;
90_conflicts.md C1). -/
def Obligations.ShareDistribution : Prop :=
  ∀ (cfg : Config) (W : BitVec 10) (s : Value), (W = 128 ∨ W = 256) → s.toNat < 2 ^ W.toNat →
    (∀ b : Value, b.toNat < 2 ^ W.toNat →
      ∃! a : Value, a.toNat < 2 ^ W.toNat ∧ ∃ c, split cfg W s a = .ok ⟨a, b, c⟩) ∧
    (∀ a b c : Value, split cfg W s a = .ok ⟨a, b, c⟩ → c.toNat % 2 = s.toNat % 2) ∧
    (∀ c : Value, c.toNat < 2 ^ W.toNat → c.toNat % 2 = s.toNat % 2 →
      ∃ a a' : Value, a'.toNat = a.toNat + 2 ^ (W.toNat - 1) ∧
        ∀ x : Value, (∃ b, split cfg W s x = .ok ⟨x, b, c⟩) ↔ x = a ∨ x = a')

/-- R175: the JOIN dispatcher. Fewer than two shares is `InsufficientShares` first; then a width outside (128, 256) is
`UnsupportedBitWidth`; then different widths are `BitWidthMismatch`; else the join of the pair, (A, B) when all are present. -/
def Obligations.JoinDispatcher : Prop :=
  ∀ (cfg : Config) (x y : Tagged) (third : Option Tagged),
    let supported := fun t : Tagged => t.width = 128 ∨ t.width = 256
    (join cfg none none none = .error ⟨.insufficientShares, 0⟩ ∧
      join cfg (some x) none none = .error ⟨.insufficientShares, 0⟩ ∧
      join cfg none (some x) none = .error ⟨.insufficientShares, 0⟩ ∧
      join cfg none none (some x) = .error ⟨.insufficientShares, 0⟩) ∧
    (¬ supported x ∨ ¬ supported y →
      join cfg (some x) (some y) third = .error ⟨.unsupportedBitWidth, 0⟩ ∧
      join cfg (some x) none (some y) = .error ⟨.unsupportedBitWidth, 0⟩ ∧
      join cfg none (some x) (some y) = .error ⟨.unsupportedBitWidth, 0⟩) ∧
    (supported x → supported y → x.width ≠ y.width →
      join cfg (some x) (some y) third = .error ⟨.bitWidthMismatch, 0⟩ ∧
      join cfg (some x) none (some y) = .error ⟨.bitWidthMismatch, 0⟩ ∧
      join cfg none (some x) (some y) = .error ⟨.bitWidthMismatch, 0⟩) ∧
    (supported x → x.width = y.width →
      join cfg (some x) (some y) third = joinAB cfg x.width x.value y.value ∧
      join cfg (some x) none (some y) = joinAC cfg x.width x.value y.value ∧
      join cfg none (some x) (some y) = joinBC cfg x.width x.value y.value)

/-! ## Host forms and host programs -/

/-- R210: HEX gives exactly W/4 digits of `0`-`9`, `a`-`f`, digit j being nibble W/4 − 1 − j of s. -/
def Obligations.HexDigitsOfSecret : Prop :=
  ∀ W s : Nat, (W = 128 ∨ W = 256) → s < 2 ^ W →
    (hexDigits W s).length = W / 4 ∧
    ∀ j < W / 4, (hexDigits W s)[j]? =
      ['0', '1', '2', '3', '4', '5', '6', '7', '8', '9', 'a', 'b', 'c', 'd', 'e', 'f'][s / 2 ^ (4 * (W / 4 - 1 - j)) % 16]?

/-- R211: the width inferred from a hex string: 1 to 32 digits give 128, 33 to 64 give 256, none is an empty share, more than 64
is `UnsupportedBitWidth`; and the value is below 2^(4n), so nothing is cut off. -/
def Obligations.HexStringWidth : Prop :=
  ∀ digits : List (BitVec 4),
    hexValue digits = ∑ k ∈ Finset.range digits.length, (digits.getD k 0).toNat * 16 ^ (digits.length - 1 - k) ∧
    hexValue digits < 2 ^ (4 * digits.length) ∧
    (digits.length = 0 → shareOfHex digits = .ok none) ∧
    (1 ≤ digits.length → digits.length ≤ 32 → hexValue digits < 2 ^ 128 ∧
      shareOfHex digits = .ok (some ⟨128, BitVec.ofNat 256 (hexValue digits)⟩)) ∧
    (33 ≤ digits.length → digits.length ≤ 64 → hexValue digits < 2 ^ 256 ∧
      shareOfHex digits = .ok (some ⟨256, BitVec.ofNat 256 (hexValue digits)⟩)) ∧
    (65 ≤ digits.length → shareOfHex digits = .error ⟨.unsupportedBitWidth, 0⟩)

/-- R212: the width of a mnemonic from its word count, the inference DEC makes, with NW as its inverse. -/
def Obligations.MnemonicWidth : Prop :=
  mnemBits 12 = .ok 128 ∧ mnemBits 24 = .ok 256 ∧
  (∀ n, n ≠ 12 → n ≠ 24 → mnemBits n = .error ⟨.invalidWordCount, 0⟩) ∧
  wordCount 128 = 12 ∧ wordCount 256 = 24

/-- R213 (marked [derived: …] in the spec): FROMBYTES takes exactly 16 or 32 bytes, big-endian; the byte form of the Secret
gives the bytes back. -/
def Obligations.SecretOfBytesBigEndian : Prop :=
  ∀ b : List Byte,
    (b.length = 16 → ∃ s : Value, secretOfBytes b = .ok ⟨128, s⟩ ∧ s.toNat = fromBytes b ∧ entBytes s.toNat 128 = b) ∧
    (b.length = 32 → ∃ s : Value, secretOfBytes b = .ok ⟨256, s⟩ ∧ s.toNat = fromBytes b ∧ entBytes s.toNat 256 = b) ∧
    (b.length ≠ 16 → b.length ≠ 32 → secretOfBytes b = .error ⟨.unsupportedBitWidth, 0⟩)

/-- A line of a host program issues one command and gets its response; a line whose response is an error binds no result
(R75). -/
def Obligations.ErrorBindsNoResult : Prop :=
  ∀ (cfg : Config) (env : Env) (l : Line) (req : Request), l.request env = some req →
    ∃ env', runLine cfg env l = some (env', issue cfg req) ∧ ((issue cfg req).status ≠ 0 → env' = env)
end

