-- ==== Sys2Proof/Laws/State.lean ====
section
/-! SUPPORT. One lemma per field per update of State, and what the shared operations over State do. -/

namespace Sys2Proof.Machine

@[simp] theorem State.answer_request (s : State) (r : Response) : (s.answer r).request = s.request := rfl

@[simp] theorem State.answer_response (s : State) (r : Response) : (s.answer r).response = some r := rfl

@[simp] theorem State.answer_answer (s : State) (q r : Response) : (s.answer q).answer r = s.answer r := rfl

@[simp] theorem State.resetBlock_request (s : State) : s.resetBlock.request = s.request := rfl

@[simp] theorem State.resetBlock_response (s : State) : s.resetBlock.response = none := rfl

@[simp] theorem State.resetBlock_answer (s : State) (r : Response) : s.resetBlock.answer r = s.answer r := rfl

@[simp] theorem State.withFetchWord_cmd (s : State) (nbits w : Nat) :
    (s.withFetchWord nbits w).request.cmd = BitVec.ofNat 32 (w % 2 ^ nbits) := rfl

@[simp] theorem State.withFetchWord_opa (s : State) (nbits w : Nat) :
    (s.withFetchWord nbits w).request.opa = s.request.opa := rfl

@[simp] theorem State.withFetchWord_opb (s : State) (nbits w : Nat) :
    (s.withFetchWord nbits w).request.opb = s.request.opb := rfl

@[simp] theorem State.withFetchWord_win (s : State) (nbits w : Nat) :
    (s.withFetchWord nbits w).request.win = s.request.win := rfl

@[simp] theorem State.withFetchWord_chin (s : State) (nbits w : Nat) :
    (s.withFetchWord nbits w).request.chin = s.request.chin := rfl

@[simp] theorem State.withFetchWord_response (s : State) (nbits w : Nat) :
    (s.withFetchWord nbits w).response = s.response := rfl

/-- What every instruction does, once: it answers, and its answer is the pure response to the request ports. -/
theorem exec_eq_answer (i : Instr) (s : State) :
    exec i s = .next (s.answer (respond Config.platform i s.request)) := by
  cases i <;> rfl

/-- A next state is the one `answer` makes, so its response is the given one exactly when the responses agree. -/
theorem next_answer_inj {s : State} {q r : Response} :
    (Host.Outcome.next (s.answer q) : Host.Outcome State Fault Refusal) = .next { s with response := some r } ↔ q = r := by
  simp [State.answer]

/-- `exec` answers `r` exactly when the pure response is `r`. -/
theorem exec_eq_next_iff {i : Instr} {s : State} {r : Response} :
    exec i s = .next { s with response := some r } ↔ respond Config.platform i s.request = r := by
  rw [exec_eq_answer, next_answer_inj]

/-- A step on a word that decodes answers that instruction's pure response. -/
theorem step_of_decode {s : State} {i : Instr} (h : decode s.request.cmd = .ok i) :
    step s = .next (s.answer (respond Config.platform i s.request)) := by
  simp only [step, h, exec_eq_answer]

/-- A step on a word the decoder rejects answers `IllegalCommand`. -/
theorem step_of_reject {s : State} {r : DecodeReject} (h : decode s.request.cmd = .error r) :
    step s = .next (s.answer (raise .illegalCommand 0)) := by
  simp only [step, h, rejectCommand]

/-- Whatever the command word, a step answers and leaves the request ports alone. -/
theorem step_answers (s : State) : ∃ r, step s = .next (s.answer r) := by
  cases h : decode s.request.cmd with
  | ok i => exact ⟨_, step_of_decode h⟩
  | error r => exact ⟨_, step_of_reject h⟩

end Sys2Proof.Machine
end

