-- ==== Sys2Proof/Laws/Codec.lean ====
section
/-! SUPPORT. The mnemonic code word and the byte form: cutting a number into groups and joining groups again, the checksum, and
what ENC and DEC answer in these terms (spec/30_encoding.md R70, R71; spec/20_memory.md R41). -/

namespace Sys2Proof.Machine

/-! ## Widths and slots -/

theorem widthSupported_iff (W : Nat) : widthSupported W = true ↔ W = 128 ∨ W = 256 := by
  simp [widthSupported]

theorem widthOfCount_eq_some {n W : Nat} : widthOfCount n = some W ↔ (n = 12 ∧ W = 128) ∨ (n = 24 ∧ W = 256) := by
  unfold widthOfCount
  split
  · simp [*, eq_comm]
  · split <;> simp [*, eq_comm]

@[simp] theorem slotIdx_knownSlot (i : Index) : slotIdx (knownSlot i) = i := by
  apply BitVec.eq_of_toNat_eq
  have := i.isLt
  simp [slotIdx, knownSlot]
  omega

@[simp] theorem slotUnk_knownSlot (i : Index) : slotUnk (knownSlot i) = false := by
  simp [slotUnk, knownSlot, BitVec.getLsbD_of_ge]

@[simp] theorem slotUnk_unknownSlot : slotUnk unknownSlot = true := by decide

/-- A slot with `unk` = 0 is the known slot of its index. -/
theorem knownSlot_slotIdx {s : Slot} (h : slotUnk s = false) : knownSlot (slotIdx s) = s := by
  have h' : s.toNat < 2 ^ 11 := by
    have hs := s.isLt
    simp only [slotUnk, BitVec.getLsbD, Nat.testBit_eq_decide_div_mod_eq] at h
    simp at h
    omega
  apply BitVec.eq_of_toNat_eq
  simp [knownSlot, slotIdx]
  omega

theorem knownSlot_injective {i j : Index} (h : knownSlot i = knownSlot j) : i = j := by
  simpa using congrArg slotIdx h

/-! ## Groups of eleven bits -/

theorem groupIndex_eq (V n i : Nat) : groupIndex V n i = BitVec.ofNat 11 (V / 2 ^ (11 * (n - 1 - i))) := by
  have h : ∀ x : Nat, x &&& 0x7FF = x % 2 ^ 11 := fun x => Nat.and_two_pow_sub_one_eq_mod x 11
  apply BitVec.eq_of_toNat_eq
  simp [groupIndex, h, Nat.shiftRight_eq_div_pow]

@[simp] theorem groups_length (V n : Nat) : (groups V n).length = n := by simp [groups]

/-- The last group is the low eleven bits, and the others are the groups of the rest. -/
theorem groups_succ (V n : Nat) : groups V (n + 1) = groups (V / 2 ^ 11) n ++ [BitVec.ofNat 11 V] := by
  simp only [groups, List.range_succ, List.map_append, List.map_cons, List.map_nil]
  congr 1
  · apply List.map_congr_left
    intro i hi
    have hi := List.mem_range.1 hi
    rw [groupIndex_eq, groupIndex_eq, Nat.div_div_eq_div_mul, ← pow_add]
    congr 3
    omega
  · simp [groupIndex_eq]

theorem joinGroups_append (l : List Index) (i : Index) : joinGroups (l ++ [i]) = joinGroups l * 2 ^ 11 + i.toNat := by
  simp [joinGroups]

theorem joinGroups_lt (l : List Index) : joinGroups l < 2 ^ (11 * l.length) := by
  induction l using List.reverseRecOn with
  | nil => simp [joinGroups]
  | append_singleton l i ih =>
    have := i.isLt
    rw [joinGroups_append, List.length_append, List.length_singleton, Nat.mul_add, pow_add]
    omega

/-- Joining the groups of a code word gives the code word back (R71). -/
theorem joinGroups_groups {V n : Nat} (h : V < 2 ^ (11 * n)) : joinGroups (groups V n) = V := by
  induction n generalizing V with
  | zero =>
    have : V = 0 := by simpa using h
    simp [groups, joinGroups, this]
  | succ n ih =>
    have h' : V < 2 ^ (11 * n) * 2 ^ 11 := by rwa [← pow_add]
    rw [groups_succ, joinGroups_append, ih (Nat.div_lt_of_lt_mul (by omega)), BitVec.toNat_ofNat]
    omega

/-- Cutting joined groups gives the groups back (R71). -/
theorem groups_joinGroups (l : List Index) : groups (joinGroups l) l.length = l := by
  induction l using List.reverseRecOn with
  | nil => simp [groups]
  | append_singleton l i ih =>
    have := i.isLt
    rw [List.length_append, List.length_singleton, groups_succ, joinGroups_append]
    congr 1
    · rw [show (joinGroups l * 2 ^ 11 + i.toNat) / 2 ^ 11 = joinGroups l by omega, ih]
    · congr 1
      apply BitVec.eq_of_toNat_eq
      rw [BitVec.toNat_ofNat]
      omega

/-- V as the sum of its groups by position (R71). -/
theorem joinGroups_eq_sum (l : List Index) :
    joinGroups l = ∑ k ∈ Finset.range l.length, (l.getD k 0).toNat * 2 ^ (11 * (l.length - 1 - k)) := by
  induction l using List.reverseRecOn with
  | nil => simp [joinGroups]
  | append_singleton l i ih =>
    rw [joinGroups_append, ih, List.length_append, List.length_singleton, Finset.sum_range_succ, Finset.sum_mul]
    congr 1
    · apply Finset.sum_congr rfl
      intro k hk
      have hk := Finset.mem_range.1 hk
      rw [List.getD_append _ _ _ _ hk, mul_assoc, ← pow_add]
      congr 2
      omega
    · simp

/-! ## The byte form -/

theorem entBytes_length (s W : Nat) : (entBytes s W).length = W / 8 := by simp [entBytes, byteCount]

theorem entBytes_succ (s n : Nat) : entBytes s (8 * (n + 1)) = entBytes (s / 2 ^ 8) (8 * n) ++ [BitVec.ofNat 8 s] := by
  simp only [entBytes, byteCount, Nat.mul_div_cancel_left _ (by decide : 0 < 8), List.range_succ, List.map_append,
    List.map_cons, List.map_nil]
  congr 1
  · apply List.map_congr_left
    intro i hi
    have hi := List.mem_range.1 hi
    rw [Nat.shiftRight_eq_div_pow, Nat.shiftRight_eq_div_pow, Nat.div_div_eq_div_mul, ← pow_add]
    congr 3
    omega
  · simp

theorem fromBytes_append (l : List Byte) (b : Byte) : fromBytes (l ++ [b]) = fromBytes l * 2 ^ 8 + b.toNat := by
  simp [fromBytes]

theorem fromBytes_lt (l : List Byte) : fromBytes l < 2 ^ (8 * l.length) := by
  induction l using List.reverseRecOn with
  | nil => simp [fromBytes]
  | append_singleton l i ih =>
    have := i.isLt
    rw [fromBytes_append, List.length_append, List.length_singleton, Nat.mul_add, pow_add]
    omega

/-! ## The code word -/

theorem checksum_lt (cfg : Config) (s W : Nat) (h : W = 128 ∨ W = 256) : checksum cfg s W < 2 ^ (W / 32) := by
  have := (hashByte0 cfg (entBytes s W)).isLt
  rcases h with rfl | rfl <;> simp [checksum, checksumWidth, Nat.shiftRight_eq_div_pow] <;> omega

theorem codeWord_lt (cfg : Config) (s W : Nat) (h : W = 128 ∨ W = 256) (hs : s < 2 ^ W) :
    codeWord cfg s W < 2 ^ (11 * wordCount W) := by
  have := checksum_lt cfg s W h
  have e : 11 * wordCount W = W + W / 32 := by rcases h with rfl | rfl <;> rfl
  rw [e, pow_add, codeWord, checksumWidth]
  calc s * 2 ^ (W / 32) + checksum cfg s W < s * 2 ^ (W / 32) + 2 ^ (W / 32) := by omega
    _ = (s + 1) * 2 ^ (W / 32) := by ring
    _ ≤ 2 ^ W * 2 ^ (W / 32) := Nat.mul_le_mul_right _ hs

theorem codeWord_div (cfg : Config) (s W : Nat) (h : W = 128 ∨ W = 256) :
    codeWord cfg s W / 2 ^ (W / 32) = s := by
  have := checksum_lt cfg s W h
  rcases h with rfl | rfl <;> simp [codeWord, checksumWidth] at * <;> omega

theorem codeWord_mod (cfg : Config) (s W : Nat) (h : W = 128 ∨ W = 256) :
    codeWord cfg s W % 2 ^ (W / 32) = checksum cfg s W := by
  have := checksum_lt cfg s W h
  rcases h with rfl | rfl <;> simp [codeWord, checksumWidth] at * <;> omega

/-- DEC's steps 2 to 4 with the shift and the mask as quotient and remainder (R134, R135). -/
theorem verifyCodeWord_eq (cfg : Config) (V W : Nat) :
    verifyCodeWord cfg V W =
      if V % 2 ^ (W / 32) = checksum cfg (V / 2 ^ (W / 32)) W then valueResponse (V / 2 ^ (W / 32)) W
      else raise .invalidChecksum 0 := by
  simp only [verifyCodeWord, checksumWidth, Nat.and_two_pow_sub_one_eq_mod, Nat.shiftRight_eq_div_pow, ne_eq, ite_not]

/-! ## What ENC and DEC answer -/

/-- ENC, all cases at once (R110, R116). -/
theorem encResponse_cases (cfg : Config) (W : Nat) (req : Request) :
    (¬ (W = 128 ∨ W = 256) ∧ encResponse cfg W req = .error .unsupportedBitWidth 0) ∨
    ((W = 128 ∨ W = 256) ∧ 2 ^ W ≤ req.opa.toNat ∧ encResponse cfg W req = .error .bitWidthMismatch 0) ∨
    ((W = 128 ∨ W = 256) ∧ req.opa.toNat < 2 ^ W ∧ encResponse cfg W req =
      .ok (.slots (BitVec.ofNat 8 (wordCount W))
        ((groups (codeWord cfg req.opa.toNat W) (wordCount W)).map knownSlot))) := by
  by_cases h : W = 128 ∨ W = 256
  · have hw := (widthSupported_iff W).2 h
    by_cases ha : req.opa.toNat < 2 ^ W
    · exact .inr (.inr ⟨h, ha, by simp [encResponse, checkEnc, hw, valueFits, ha]⟩)
    · refine .inr (.inl ⟨h, by omega, ?_⟩)
      simp [encResponse, checkEnc, hw, valueFits, ha, raise]
  · have hw : widthSupported W = false := by
      rw [Bool.eq_false_iff]; exact mt (widthSupported_iff W).1 h
    exact .inl ⟨h, by simp [encResponse, checkEnc, hw, raise]⟩

/-- ENC of an in-range Secret at a supported width. -/
theorem encResponse_ok {cfg : Config} {W : Nat} {req : Request} (h : W = 128 ∨ W = 256) (ha : req.opa.toNat < 2 ^ W) :
    encResponse cfg W req = .ok (.slots (BitVec.ofNat 8 (wordCount W))
      ((groups (codeWord cfg req.opa.toNat W) (wordCount W)).map knownSlot)) := by
  rcases encResponse_cases cfg W req with ⟨h', -⟩ | ⟨-, h', -⟩ | ⟨-, -, e⟩
  · exact absurd h h'
  · omega
  · exact e

/-- An Ok response of ENC has a supported width and an in-range Secret, and its slots are the groups of the code word. -/
theorem encResponse_eq_slots {cfg : Config} {W : Nat} {req : Request} {n : BitVec 8} {m : List Slot}
    (h : encResponse cfg W req = .ok (.slots n m)) :
    (W = 128 ∨ W = 256) ∧ req.opa.toNat < 2 ^ W ∧ n = BitVec.ofNat 8 (wordCount W) ∧
      m = (groups (codeWord cfg req.opa.toNat W) (wordCount W)).map knownSlot := by
  rcases encResponse_cases cfg W req with ⟨-, e⟩ | ⟨-, -, e⟩ | ⟨hw, ha, e⟩ <;> rw [e] at h
  · cases h
  · cases h
  · cases h; exact ⟨hw, ha, rfl, rfl⟩

theorem firstUnknown_eq_none {l : List Slot} : firstUnknown l = none ↔ ∀ s ∈ l, slotUnk s = false := by
  simp [firstUnknown, List.findIdx?_eq_none_iff]

/-- A list of slots with `unk` = 0 is the list of the known slots of its indices. -/
theorem map_knownSlot_map_slotIdx {l : List Slot} (h : firstUnknown l = none) :
    (l.map slotIdx).map knownSlot = l := by
  rw [List.map_map]
  conv_rhs => rw [← List.map_id l]
  exact List.map_congr_left fun s hs => knownSlot_slotIdx (firstUnknown_eq_none.1 h s hs)

theorem inputSlots_length {n : Nat} (h : n = 12 ∨ n = 24) (req : Request) : (inputSlots n req).length = n := by
  simp [inputSlots]
  omega

/-- The code word of the input slots as the sum that R71 writes. -/
theorem joinGroups_inputSlots {n : Nat} (h : n = 12 ∨ n = 24) (req : Request) :
    joinGroups ((inputSlots n req).map slotIdx) =
      ∑ j : Fin 24, if j.val < n then (slotIdx req.win[j]).toNat * 2 ^ (11 * (n - 1 - j.val)) else 0 := by
  rw [joinGroups_eq_sum, List.length_map, inputSlots_length h]
  have e : ∀ j : Fin 24, (if j.val < n then (slotIdx req.win[j]).toNat * 2 ^ (11 * (n - 1 - j.val)) else 0) =
      (fun j => if j < n then (slotIdx (req.win[j]?.getD 0)).toNat * 2 ^ (11 * (n - 1 - j)) else 0) j.val := by
    intro j
    simp
  rw [Finset.sum_congr rfl (fun j _ => e j),
    Fin.sum_univ_eq_sum_range (fun j => if j < n then (slotIdx (req.win[j]?.getD 0)).toNat * 2 ^ (11 * (n - 1 - j)) else 0) 24,
    ← Finset.sum_filter]
  have hf : (Finset.range 24).filter (· < n) = Finset.range n := by
    ext k
    simp
    omega
  rw [hf]
  apply Finset.sum_congr rfl
  intro k hk
  have hk := Finset.mem_range.1 hk
  have hk24 : k < 24 := by omega
  simp [inputSlots, hk, hk24]

/-- DEC of a count other than 12 and 24. -/
theorem decResponse_count {cfg : Config} {n : Nat} {req : Request} (h₁ : n ≠ 12) (h₂ : n ≠ 24) :
    decResponse cfg n req = .error .invalidWordCount 0 := by
  simp [decResponse, widthOfCount, h₁, h₂, raise]

/-- DEC when every slot is known: what is left is the verification of the rebuilt code word. -/
theorem decResponse_known {cfg : Config} {n W : Nat} {req : Request} (h : (n = 12 ∧ W = 128) ∨ (n = 24 ∧ W = 256))
    (hk : firstUnknown (inputSlots n req) = none) :
    decResponse cfg n req = verifyCodeWord cfg (joinGroups ((inputSlots n req).map slotIdx)) W := by
  simp only [decResponse, widthOfCount_eq_some.2 h, hk]

/-- DEC when some slot is unknown: the first one is reported. -/
theorem decResponse_unknown {cfg : Config} {n k : Nat} {req : Request} (h : n = 12 ∨ n = 24)
    (hk : firstUnknown (inputSlots n req) = some k) :
    decResponse cfg n req = .error .unknownWord (BitVec.ofNat 8 k) := by
  rcases h with rfl | rfl <;> simp [decResponse, widthOfCount, hk, raise]

/-- An Ok response of DEC: the count gives the width, every slot is known, and the checksum of the entropy is the received
one. -/
theorem decResponse_eq_value {cfg : Config} {n : Nat} {req : Request} {res : Value} {resw : BitVec 10}
    (h : decResponse cfg n req = .ok (.value res resw)) :
    ∃ W, ((n = 12 ∧ W = 128) ∨ (n = 24 ∧ W = 256)) ∧ firstUnknown (inputSlots n req) = none ∧
      resw = BitVec.ofNat 10 W ∧
      res.toNat = joinGroups ((inputSlots n req).map slotIdx) / 2 ^ (W / 32) ∧
      joinGroups ((inputSlots n req).map slotIdx) = codeWord cfg res.toNat W := by
  unfold decResponse at h
  split at h
  · cases h
  · rename_i W hW
    have hW := widthOfCount_eq_some.1 hW
    split at h
    · cases h
    · rename_i hk
      have hn : n = 12 ∨ n = 24 := by omega
      have hV := joinGroups_lt ((inputSlots n req).map slotIdx)
      rw [List.length_map, inputSlots_length hn] at hV
      rw [verifyCodeWord_eq] at h
      split at h
      · rename_i hc
        have hlt : joinGroups ((inputSlots n req).map slotIdx) / 2 ^ (W / 32) < 2 ^ 256 := by
          apply Nat.div_lt_of_lt_mul
          refine lt_of_lt_of_le hV ?_
          rw [← pow_add]
          exact Nat.pow_le_pow_right (by decide) (by omega)
        simp only [valueResponse, Response.ok.injEq, OkPorts.value.injEq] at h
        obtain ⟨rfl, rfl⟩ := h
        have hr : (BitVec.ofNat 256 (joinGroups ((inputSlots n req).map slotIdx) / 2 ^ (W / 32))).toNat =
            joinGroups ((inputSlots n req).map slotIdx) / 2 ^ (W / 32) := by
          rw [BitVec.toNat_ofNat, Nat.mod_eq_of_lt hlt]
        refine ⟨W, hW, hk, rfl, hr, ?_⟩
        rw [hr, codeWord, ← hc, checksumWidth]
        exact (Nat.div_add_mod' _ _).symm
      · cases h

end Sys2Proof.Machine
end

