-- ==== Sys2Proof/Laws/Arith.lean ====
section
/-! SUPPORT. ADD and SUB: what they answer, all cases at once, and their results as numbers (spec/40_arith.md R90 to R92). -/

namespace Sys2Proof.Machine

theorem checkArith_none {W : Nat} {a b : Value} (h : W = 128 ∨ W = 256) (ha : a.toNat < 2 ^ W) (hb : b.toNat < 2 ^ W) :
    checkArith W a b = none := by
  simp [checkArith, (widthSupported_iff W).2 h, valueFits, ha, hb]

theorem checkArith_range {W : Nat} {a b : Value} (h : W = 128 ∨ W = 256) (hab : 2 ^ W ≤ a.toNat ∨ 2 ^ W ≤ b.toNat) :
    checkArith W a b = some .bitWidthMismatch := by
  have : ¬ (a.toNat < 2 ^ W ∧ b.toNat < 2 ^ W) := by omega
  simp only [checkArith, (widthSupported_iff W).2 h, valueFits]
  simp
  omega

theorem checkArith_width {W : Nat} {a b : Value} (h : ¬ (W = 128 ∨ W = 256)) :
    checkArith W a b = some .unsupportedBitWidth := by
  have hw : widthSupported W = false := by
    rw [Bool.eq_false_iff]; exact mt (widthSupported_iff W).1 h
  simp [checkArith, hw]

theorem checkArith_eq_none {W : Nat} {a b : Value} (h : checkArith W a b = none) :
    (W = 128 ∨ W = 256) ∧ a.toNat < 2 ^ W ∧ b.toNat < 2 ^ W := by
  by_cases hW : W = 128 ∨ W = 256
  · refine ⟨hW, ?_⟩
    by_contra hab
    rw [checkArith_range hW (by omega)] at h
    cases h
  · rw [checkArith_width hW] at h
    cases h

/-- The check answers nothing or one of its two errors. -/
theorem checkArith_cases (W : Nat) (a b : Value) :
    checkArith W a b = none ∨ checkArith W a b = some .unsupportedBitWidth ∨
      checkArith W a b = some .bitWidthMismatch := by
  unfold checkArith
  split
  · exact .inr (.inl rfl)
  · split
    · exact .inr (.inr rfl)
    · exact .inl rfl

theorem modAdd_lt (W a b : Nat) : modAdd W a b < 2 ^ W := Nat.mod_lt _ (Nat.two_pow_pos W)

theorem modSub_lt {W a b : Nat} (ha : a < 2 ^ W) : modSub W a b < 2 ^ W := by
  unfold modSub
  split <;> omega

/-- SUB's case distinction is subtraction modulo 2^W (R91, R93). -/
theorem modSub_eq {W a b : Nat} (ha : a < 2 ^ W) (hb : b < 2 ^ W) : modSub W a b = (a + 2 ^ W - b) % 2 ^ W := by
  unfold modSub
  split
  · rw [show a + 2 ^ W - b = (a - b) + 2 ^ W by omega, Nat.add_mod_right, Nat.mod_eq_of_lt (by omega)]
  · rw [Nat.mod_eq_of_lt (by omega)]

theorem modSub_eq_int {W a b : Nat} (ha : a < 2 ^ W) (hb : b < 2 ^ W) :
    (modSub W a b : Int) = ((a : Int) - b) % 2 ^ W := by
  have hW : ((2 ^ W : Nat) : Int) = 2 ^ W := by push_cast; rfl
  have hp : (0 : Int) < 2 ^ W := by rw [← hW]; exact_mod_cast Nat.two_pow_pos W
  unfold modSub
  split
  · rw [Int.emod_eq_of_lt (by omega) (by omega)]
    omega
  · rw [← Int.add_emod_right, Int.emod_eq_of_lt (by omega) (by omega)]
    omega

/-- A result below 2^W at a supported width stands on the 256-bit port whole. -/
theorem toNat_ofNat_256 {W v : Nat} (h : W = 128 ∨ W = 256) (hv : v < 2 ^ W) : (BitVec.ofNat 256 v).toNat = v := by
  rw [BitVec.toNat_ofNat, Nat.mod_eq_of_lt]
  exact lt_of_lt_of_le hv (Nat.pow_le_pow_right (by decide) (by omega))

theorem toNat_ofNat_10 {W : Nat} (h : W = 128 ∨ W = 256) : (BitVec.ofNat 10 W).toNat = W := by
  rcases h with rfl | rfl <;> rfl

/-- ADD of in-range operands at a supported width. -/
theorem addResponse_ok {W : Nat} {req : Request} (h : W = 128 ∨ W = 256) (ha : req.opa.toNat < 2 ^ W)
    (hb : req.opb.toNat < 2 ^ W) :
    addResponse W req = valueResponse (modAdd W req.opa.toNat req.opb.toNat) W := by
  simp only [addResponse, checkArith_none h ha hb]

/-- SUB of in-range operands at a supported width. -/
theorem subResponse_ok {W : Nat} {req : Request} (h : W = 128 ∨ W = 256) (ha : req.opa.toNat < 2 ^ W)
    (hb : req.opb.toNat < 2 ^ W) :
    subResponse W req = valueResponse (modSub W req.opa.toNat req.opb.toNat) W := by
  simp only [subResponse, checkArith_none h ha hb]

/-- An Ok response of ADD passed both checks. -/
theorem addResponse_eq_value {W : Nat} {req : Request} {res : Value} {resw : BitVec 10}
    (h : addResponse W req = .ok (.value res resw)) :
    (W = 128 ∨ W = 256) ∧ req.opa.toNat < 2 ^ W ∧ req.opb.toNat < 2 ^ W ∧ resw = BitVec.ofNat 10 W ∧
      res.toNat = modAdd W req.opa.toNat req.opb.toNat := by
  unfold addResponse at h
  split at h
  · cases h
  · rename_i hc
    obtain ⟨hW, ha, hb⟩ := checkArith_eq_none hc
    cases h
    exact ⟨hW, ha, hb, rfl, toNat_ofNat_256 hW (modAdd_lt _ _ _)⟩

/-- An Ok response of SUB passed both checks. -/
theorem subResponse_eq_value {W : Nat} {req : Request} {res : Value} {resw : BitVec 10}
    (h : subResponse W req = .ok (.value res resw)) :
    (W = 128 ∨ W = 256) ∧ req.opa.toNat < 2 ^ W ∧ req.opb.toNat < 2 ^ W ∧ resw = BitVec.ofNat 10 W ∧
      res.toNat = modSub W req.opa.toNat req.opb.toNat := by
  unfold subResponse at h
  split at h
  · cases h
  · rename_i hc
    obtain ⟨hW, ha, hb⟩ := checkArith_eq_none hc
    cases h
    exact ⟨hW, ha, hb, rfl, toNat_ofNat_256 hW (modSub_lt ha)⟩

end Sys2Proof.Machine
end

