-- ==== Sys2Proof/Laws/Command.lean ====
section
/-! SUPPORT. The command word: the fields of a packed word, and what the decoder reads from it. -/

namespace Sys2Proof

theorem cmd_fields_eq (w : BitVec 32) :
    (cmdRSV w).toNat = w.toNat / 2 ^ 27 ∧ (cmdWLEN w).toNat = w.toNat / 2 ^ 22 % 32 ∧
    (cmdNWORDS w).toNat = w.toNat / 2 ^ 14 % 256 ∧ (cmdBITS w).toNat = w.toNat / 2 ^ 4 % 1024 ∧
    (cmdOP w).toNat = w.toNat % 16 := by
  have := w.isLt
  simp only [cmdRSV, cmdWLEN, cmdNWORDS, cmdBITS, cmdOP, BitVec.extractLsb'_toNat, Nat.shiftRight_eq_div_pow]
  refine ⟨by omega, ?_, ?_, ?_, ?_⟩ <;> norm_num

/-- Fields that fit their places do not overlap: the packed word is the sum of the shifted fields. -/
theorem packCommand_toNat (op bits nwords wlen : Nat) (h₁ : op < 16) (h₂ : bits < 1024) (h₃ : nwords < 256)
    (h₄ : wlen < 32) :
    (packCommand op bits nwords wlen).toNat = op + bits * 2 ^ 4 + nwords * 2 ^ 14 + wlen * 2 ^ 22 := by
  have e₁ : op ||| bits <<< 4 = op + bits * 2 ^ 4 := by
    rw [Nat.or_comm, ← Nat.shiftLeft_add_eq_or_of_lt (by omega : op < 2 ^ 4), Nat.shiftLeft_eq]; omega
  have e₂ : (op + bits * 2 ^ 4) ||| nwords <<< 14 = op + bits * 2 ^ 4 + nwords * 2 ^ 14 := by
    rw [Nat.or_comm, ← Nat.shiftLeft_add_eq_or_of_lt (by omega : op + bits * 2 ^ 4 < 2 ^ 14), Nat.shiftLeft_eq]; omega
  have e₃ : (op + bits * 2 ^ 4 + nwords * 2 ^ 14) ||| wlen <<< 22 =
      op + bits * 2 ^ 4 + nwords * 2 ^ 14 + wlen * 2 ^ 22 := by
    rw [Nat.or_comm, ← Nat.shiftLeft_add_eq_or_of_lt (by omega : op + bits * 2 ^ 4 + nwords * 2 ^ 14 < 2 ^ 22),
      Nat.shiftLeft_eq]; omega
  rw [packCommand, e₁, e₂, e₃, BitVec.toNat_ofNat]
  omega

/-- The fields of a packed word are the packed fields, and `RSV` is 0. -/
theorem cmd_fields_packCommand (op bits nwords wlen : Nat) (h₁ : op < 16) (h₂ : bits < 1024) (h₃ : nwords < 256)
    (h₄ : wlen < 32) :
    cmdRSV (packCommand op bits nwords wlen) = 0 ∧ (cmdOP (packCommand op bits nwords wlen)).toNat = op ∧
    (cmdBITS (packCommand op bits nwords wlen)).toNat = bits ∧
    (cmdNWORDS (packCommand op bits nwords wlen)).toNat = nwords ∧
    (cmdWLEN (packCommand op bits nwords wlen)).toNat = wlen := by
  have hw := packCommand_toNat op bits nwords wlen h₁ h₂ h₃ h₄
  obtain ⟨r, l, n, b, o⟩ := cmd_fields_eq (packCommand op bits nwords wlen)
  rw [hw] at r l n b o
  refine ⟨BitVec.eq_of_toNat_eq ?_, ?_, ?_, ?_, ?_⟩
  · rw [r]; show _ = 0; omega
  all_goals omega

/-- The mask of R62 keeps `RSV` and `OP`: a word has the masked value `op` exactly when `RSV` is 0 and `OP` is `op`. -/
theorem mask_eq_iff (w : BitVec 32) (op : Nat) (h : op < 16) :
    w &&& 0xF800000F#32 = BitVec.ofNat 32 op ↔ cmdRSV w = 0 ∧ (cmdOP w).toNat = op := by
  have e : w &&& 0xF800000F#32 = (w >>> 27) <<< 27 ||| (w &&& 15#32) := by
    ext k hk
    interval_cases k <;> simp
  have hw := w.isLt
  have hm : w.toNat &&& 15 = w.toNat % 16 := Nat.and_two_pow_sub_one_eq_mod w.toNat 4
  have hs : (w.toNat >>> 27) <<< 27 < 2 ^ 32 := by
    rw [Nat.shiftLeft_eq, Nat.shiftRight_eq_div_pow]; omega
  have hn : (w &&& 0xF800000F#32).toNat = w.toNat / 2 ^ 27 * 2 ^ 27 + w.toNat % 16 := by
    rw [e, BitVec.toNat_or, BitVec.toNat_shiftLeft, BitVec.toNat_ushiftRight, BitVec.toNat_and, Nat.mod_eq_of_lt hs]
    show _ ||| (w.toNat &&& 15) = _
    rw [hm, ← Nat.shiftLeft_add_eq_or_of_lt (by omega : w.toNat % 16 < 2 ^ 27), Nat.shiftLeft_eq,
      Nat.shiftRight_eq_div_pow]
  obtain ⟨hr, -, -, -, ho⟩ := cmd_fields_eq w
  rw [← BitVec.toNat_inj, ← BitVec.toNat_inj, hn, hr, ho, BitVec.toNat_ofNat]
  show _ ↔ _ = 0 ∧ _
  omega

/-- What the decoder reads, row by row: `RSV` is 0 and `OP` is the row's (R62). -/
theorem decode_of_mask {w : BitVec 32} {op : Nat} (h : op < 16) (hw : w &&& 0xF800000F#32 = BitVec.ofNat 32 op) :
    decode w =
      match (generalizing := false) op with
      | 1 => .ok (.add (cmdBITS w).toNat)
      | 2 => .ok (.sub (cmdBITS w).toNat)
      | 3 => .ok (.enc (cmdBITS w).toNat)
      | 4 => .ok (.dec (cmdNWORDS w).toNat)
      | 5 => .ok .wstr
      | 6 => .ok (.widx (cmdWLEN w).toNat)
      | 7 => .ok (.suggest (cmdWLEN w).toNat)
      | _ => .error (.reservedOp (cmdOP w)) := by
  obtain ⟨hr, ho⟩ := (mask_eq_iff w op h).1 hw
  simp only [decode, hr, ho, ne_eq, not_true_eq_false, if_false] <;> interval_cases op <;> rfl

/-- A word that decodes has `RSV` 0 and an `OP` from 1 to 7. -/
theorem fields_of_decode_ok {w : BitVec 32} {i : Instr} (h : decode w = .ok i) :
    cmdRSV w = 0 ∧ 1 ≤ (cmdOP w).toNat ∧ (cmdOP w).toNat ≤ 7 := by
  unfold decode at h
  split at h
  · cases h
  · rename_i hr
    refine ⟨by simpa using hr, ?_⟩
    split at h <;> first | cases h; done | (rename_i ho; simp [ho])

/-- A word that is rejected has `RSV` ≠ 0, or `OP` 0 or above 7. -/
theorem fields_of_decode_error {w : BitVec 32} {r : DecodeReject} (h : decode w = .error r) :
    cmdRSV w ≠ 0 ∨ (cmdOP w).toNat = 0 ∨ 8 ≤ (cmdOP w).toNat := by
  unfold decode at h
  split at h
  · exact .inl ‹_›
  · refine .inr ?_
    split at h <;> first | cases h; done | skip
    have := (cmdOP w).isLt
    grind

end Sys2Proof
end

