-- ==== Sys2Proof/Laws/Lev.lean ====
section
/-! SUPPORT. Edit distance: the row-by-row table of `lev` against a recursion on lists, and how that recursion moves under one
edit (spec/45_fuzzy.md rule R192). -/

namespace Sys2Proof.Machine

/-- Edit distance from `a` in front of a list, given the distances `f` from that list. -/
def editCons (a : Symbol) (f : List Symbol → Nat) : List Symbol → Nat
  | [] => f [] + 1
  | b :: v => min (min (f (b :: v) + 1) (editCons a f v + 1)) (f v + if a = b then 0 else 1)

/-- Edit distance by recursion on the heads of the two lists. -/
def editDist : List Symbol → List Symbol → Nat
  | [] => List.length
  | a :: u => editCons a (editDist u)

@[simp] theorem editDist_nil_left (v : List Symbol) : editDist [] v = v.length := rfl

@[simp] theorem editDist_nil_right (u : List Symbol) : editDist u [] = u.length := by
  induction u with
  | nil => rfl
  | cons a u ih => simp [editDist, editCons, ih]

theorem editDist_cons_cons (a b : Symbol) (u v : List Symbol) :
    editDist (a :: u) (b :: v) =
      min (min (editDist u (b :: v) + 1) (editDist (a :: u) v + 1)) (editDist u v + if a = b then 0 else 1) := rfl

/-! ## The table computes it -/

/-- The values of `f` at the growing prefixes, each prefix reversed: `p` is the reversed prefix so far. -/
def along (f : List Symbol → Nat) (p : List Symbol) : List Symbol → List Nat
  | [] => []
  | b :: q => f (b :: p) :: along f (b :: p) q

theorem levCells_along (a : Symbol) (f : List Symbol → Nat) (p q : List Symbol) :
    levCells a q (editCons a f p) (f p) (along f p q) = along (editCons a f) p q := by
  induction q generalizing p with
  | nil => rfl
  | cons b q ih =>
    simp only [along, levCells]
    exact congrArg₂ _ rfl (ih (b :: p))

theorem levRow_along (v : List Symbol) (a : Symbol) (f : List Symbol → Nat) :
    levRow v (f [] :: along f [] v) a = editCons a f [] :: along (editCons a f) [] v := by
  simp only [levRow]
  exact congrArg₂ _ rfl (levCells_along a f [] v)

theorem along_length (p v : List Symbol) : along List.length p v = (List.range v.length).map (· + p.length + 1) := by
  induction v generalizing p with
  | nil => rfl
  | cons b v ih =>
    simp only [along, ih, List.length_cons, List.range_succ_eq_map, List.map_cons, List.map_map]
    simp
    intro k _
    omega

theorem foldl_levRow (v u w : List Symbol) :
    u.foldl (levRow v) (editDist w [] :: along (editDist w) [] v) =
      editDist (u.reverse ++ w) [] :: along (editDist (u.reverse ++ w)) [] v := by
  induction u generalizing w with
  | nil => rfl
  | cons a u ih =>
    rw [List.foldl_cons, levRow_along]
    have := ih (a :: w)
    simpa [editDist] using this

theorem getLastD_along (f : List Symbol → Nat) (p v : List Symbol) :
    (f p :: along f p v).getLastD 0 = f (v.reverse ++ p) := by
  induction v generalizing p with
  | nil => rfl
  | cons b v ih =>
    have := ih (b :: p)
    simpa [along, List.getLastD_cons] using this

/-- The table's last cell is the edit distance of the two Words read backwards. -/
theorem lev_eq_editDist (u v : List Symbol) : lev u v = editDist u.reverse v.reverse := by
  have h : List.range (v.length + 1) = editDist [] [] :: along (editDist []) [] v := by
    rw [List.range_succ_eq_map]
    exact congrArg₂ _ rfl ((along_length [] v).symm ▸ rfl)
  rw [lev, h, foldl_levRow, getLastD_along, List.append_nil, List.append_nil]

/-! ## One step of either list changes it by at most one -/

theorem editDist_cons_left_le (a : Symbol) (u v : List Symbol) : editDist (a :: u) v ≤ editDist u v + 1 := by
  cases v with
  | nil => simp
  | cons b v => rw [editDist_cons_cons]; omega

theorem editDist_cons_right_le (b : Symbol) (u v : List Symbol) : editDist u (b :: v) ≤ editDist u v + 1 := by
  cases u with
  | nil => simp
  | cons a u => rw [editDist_cons_cons]; omega

theorem editDist_comm (u v : List Symbol) : editDist u v = editDist v u := by
  induction u generalizing v with
  | nil => simp
  | cons a u ihu =>
    induction v with
    | nil => simp
    | cons b v ihv =>
      rw [editDist_cons_cons, editDist_cons_cons, ihu (b :: v), ihu v, ihv, min_comm (editDist (b :: v) u + 1)]
      simp only [eq_comm]

theorem editDist_le_cons_left (a : Symbol) (u v : List Symbol) : editDist u v ≤ editDist (a :: u) v + 1 := by
  induction v with
  | nil => simp; omega
  | cons b v ih =>
    have := editDist_cons_right_le b u v
    rw [editDist_cons_cons]
    omega

theorem editDist_substitute_le (c d : Symbol) (u v : List Symbol) : editDist (c :: u) v ≤ editDist (d :: u) v + 1 := by
  induction v with
  | nil => simp
  | cons b v ih =>
    have h₁ := editDist_cons_right_le b (c :: u) v
    rw [editDist_cons_cons, editDist_cons_cons]
    rw [editDist_cons_cons] at h₁
    split <;> split <;> omega

theorem editDist_cons_congr_le {u u' : List Symbol} (h : ∀ v, editDist u v ≤ editDist u' v + 1) (x : Symbol)
    (v : List Symbol) : editDist (x :: u) v ≤ editDist (x :: u') v + 1 := by
  induction v with
  | nil => simpa using h []
  | cons b v ih =>
    have h₁ := h (b :: v)
    have h₂ := h v
    rw [editDist_cons_cons, editDist_cons_cons]
    split <;> omega

/-- One edit changes the distance to any list by at most one. -/
theorem OneEdit.editDist_le {u u' : List Symbol} (h : OneEdit u u') (v : List Symbol) :
    editDist u v ≤ editDist u' v + 1 := by
  have key : ∀ (p q q' : List Symbol), (∀ v, editDist q v ≤ editDist q' v + 1) →
      ∀ v, editDist (p ++ q) v ≤ editDist (p ++ q') v + 1 := by
    intro p q q' hq
    induction p with
    | nil => exact hq
    | cons x p ih => exact fun v => editDist_cons_congr_le ih x v
  cases h with
  | insert p q c => exact key p _ _ (editDist_le_cons_left c q) v
  | delete p q c => exact key p _ _ (editDist_cons_left_le c q) v
  | substitute p q c d => exact key p _ _ (editDist_substitute_le c d q) v

theorem OneEdit.reverse {u v : List Symbol} (h : OneEdit u v) : OneEdit u.reverse v.reverse := by
  cases h with
  | insert p q c => simpa using OneEdit.insert q.reverse p.reverse c
  | delete p q c => simpa using OneEdit.delete q.reverse p.reverse c
  | substitute p q c d => simpa using OneEdit.substitute q.reverse p.reverse c d

theorem OneEdit.cons {u v : List Symbol} (h : OneEdit u v) (x : Symbol) : OneEdit (x :: u) (x :: v) := by
  cases h with
  | insert p q c => exact .insert (x :: p) q c
  | delete p q c => exact .delete (x :: p) q c
  | substitute p q c d => exact .substitute (x :: p) q c d

theorem Edits.reverse {n : Nat} {u v : List Symbol} (h : Edits n u v) : Edits n u.reverse v.reverse := by
  induction h with
  | none u => exact .none _
  | more h _ ih => exact .more h.reverse ih

theorem Edits.cons {n : Nat} {u v : List Symbol} (h : Edits n u v) (x : Symbol) : Edits n (x :: u) (x :: v) := by
  induction h with
  | none u => exact .none _
  | more h _ ih => exact .more (h.cons x) ih

theorem Edits.snoc {n : Nat} {u v w : List Symbol} (h : Edits n u v) (h' : OneEdit v w) : Edits (n + 1) u w := by
  induction h with
  | none u => exact .more h' (.none _)
  | more h _ ih => exact .more h (ih h')

/-- That many edits do lead from the one list to the other. -/
theorem edits_editDist (u v : List Symbol) : Edits (editDist u v) u v := by
  induction u generalizing v with
  | nil =>
    induction v with
    | nil => exact .none _
    | cons b v ih => exact ih.snoc (.insert [] v b)
  | cons a u ihu =>
    induction v with
    | nil => simpa using Edits.more (.delete [] u a) (ihu [])
    | cons b v ihv =>
      rw [editDist_cons_cons]
      rcases min_choice (min (editDist u (b :: v) + 1) (editDist (a :: u) v + 1))
        (editDist u v + if a = b then 0 else 1) with e | e <;> rw [e]
      · rcases min_choice (editDist u (b :: v) + 1) (editDist (a :: u) v + 1) with e | e <;> rw [e]
        · exact .more (.delete [] u a) (ihu (b :: v))
        · exact ihv.snoc (.insert [] v b)
      · split
        · subst_vars
          exact (ihu v).cons _
        · exact .more (.substitute [] u a b) ((ihu v).cons b)

/-! ## Bounds -/

theorem editDist_le_max (u v : List Symbol) : editDist u v ≤ max u.length v.length := by
  induction u generalizing v with
  | nil => simp
  | cons a u ih =>
    cases v with
    | nil => simp
    | cons b v =>
      have := ih v
      rw [editDist_cons_cons, List.length_cons, List.length_cons]
      split <;> omega

theorem length_le_editDist (u v : List Symbol) : u.length ≤ v.length + editDist u v := by
  induction v generalizing u with
  | nil => simp
  | cons b v ihv =>
    induction u with
    | nil => simp
    | cons a u ihu =>
      have h₁ := ihv (a :: u)
      have h₂ := ihv u
      rw [editDist_cons_cons]
      simp only [List.length_cons] at *
      omega

theorem editDist_append_le (w u : List Symbol) : editDist u (w ++ u) ≤ w.length := by
  induction w with
  | nil =>
    induction u with
    | nil => simp
    | cons a u ih => rw [List.nil_append, editDist_cons_cons]; simp at *; omega
  | cons b w ih =>
    have := editDist_cons_right_le b u (w ++ u)
    rw [List.cons_append, List.length_cons]
    omega

theorem eq_of_editDist_eq_zero {u v : List Symbol} (h : editDist u v = 0) : u = v := by
  have := edits_editDist u v
  rw [h] at this
  cases this
  rfl

end Sys2Proof.Machine
end

