-- ==== Sys2Proof/Laws/Lookup.lean ====
section
/-! SUPPORT. The Wordlist: the list of indices, the search for a Word, the prefix matches and the scan for the nearest entry
(spec/43_wordlist.md R150 to R152; spec/45_fuzzy.md R190 to R193). -/

namespace Sys2Proof.Machine

theorem mem_allIndices (i : Index) : i ∈ allIndices := by
  refine List.mem_map.2 ⟨i.toNat, List.mem_range.2 i.isLt, ?_⟩
  simp

theorem allIndices_sorted : allIndices.Pairwise fun i j => i.toNat < j.toNat := by
  rw [allIndices, List.pairwise_map]
  refine (List.pairwise_lt_range (n := 2048)).imp_of_mem ?_
  intro a b ha hb hab
  have ha := List.mem_range.1 ha
  have hb := List.mem_range.1 hb
  simp only [BitVec.toNat_ofNat]
  omega

theorem allIndices_nodup : allIndices.Nodup := by
  refine allIndices_sorted.imp ?_
  intro a b h e
  exact absurd (congrArg BitVec.toNat e) (by omega)

/-! ## Word to index -/

theorem lookupWord_eq_some {cfg : Config} {w : Word} {i : Index} : lookupWord cfg w = some i ↔ cfg.wordlist i = w := by
  have found : ∀ j, lookupWord cfg w = some j → cfg.wordlist j = w := fun j h => of_decide_eq_true (List.find?_some h :)
  refine ⟨found i, fun h => ?_⟩
  cases e : lookupWord cfg w with
  | none =>
    have := of_decide_eq_false (Bool.eq_false_iff.2 (List.find?_eq_none.1 e i (mem_allIndices i)))
    exact absurd h this
  | some j => rw [cfg.wordlist_injective j i ((found j e).trans h.symm)]

theorem lookupWord_eq_none {cfg : Config} {w : Word} : lookupWord cfg w = none ↔ ∀ i, cfg.wordlist i ≠ w := by
  constructor
  · intro h i hi
    rw [lookupWord_eq_some.2 hi] at h
    cases h
  · intro h
    cases e : lookupWord cfg w with
    | none => rfl
    | some j => exact absurd (lookupWord_eq_some.1 e) (h j)

/-- An entry is the Word on `CHIN` exactly when its symbols are. -/
theorem wordlist_eq_inputWord {cfg : Config} {i : Index} {L : Nat} {req : Request} :
    cfg.wordlist i = inputWord L req ↔ (cfg.wordlist i).symbols = req.chin.toList.take L := by
  constructor
  · intro h
    rw [h]
    rfl
  · intro h
    cases e : cfg.wordlist i with
    | mk symbols fits =>
      rw [e] at h
      cases h
      rfl

/-! ## The nearest entry -/

/-- The scan splits the entries it has seen into those before its answer, which are farther, and those after it, which are no
nearer. -/
theorem scanNearest_split (d : Index → Nat) (best : Index) (l : List Index) :
    ∃ before after, best :: l = before ++ scanNearest d best (d best) l :: after ∧
      (∀ i ∈ before, d (scanNearest d best (d best) l) < d i) ∧
      (∀ i ∈ after, d (scanNearest d best (d best) l) ≤ d i) := by
  induction l generalizing best with
  | nil => exact ⟨[], [], rfl, by simp, by simp⟩
  | cons j l ih =>
    rw [scanNearest]
    split
    · rename_i hlt
      obtain ⟨before, after, e, h₁, h₂⟩ := ih j
      refine ⟨best :: before, after, by rw [e]; rfl, ?_, h₂⟩
      intro i hi
      rcases List.mem_cons.1 hi with rfl | hi
      · have hj : j ∈ before ++ scanNearest d j (d j) l :: after := e ▸ List.mem_cons_self
        rcases List.mem_append.1 hj with hj | hj
        · exact lt_trans (h₁ j hj) hlt
        · rcases List.mem_cons.1 hj with hj | hj
          · rwa [← hj]
          · exact lt_of_le_of_lt (h₂ j hj) hlt
      · exact h₁ i hi
    · rename_i hge
      obtain ⟨before, after, e, h₁, h₂⟩ := ih best
      cases before with
      | nil =>
        rw [List.nil_append, List.cons.injEq] at e
        obtain ⟨hb, rfl⟩ := e
        refine ⟨[], j :: l, by rw [← hb]; rfl, by simp, ?_⟩
        intro i hi
        rcases List.mem_cons.1 hi with rfl | hi
        · rw [← hb]; omega
        · exact h₂ i hi
      | cons b before =>
        rw [List.cons_append, List.cons.injEq] at e
        obtain ⟨rfl, e⟩ := e
        have hb := h₁ best List.mem_cons_self
        refine ⟨best :: j :: before, after, congrArg (best :: j :: ·) e, ?_, h₂⟩
        intro i hi
        rcases List.mem_cons.1 hi with rfl | hi
        · exact hb
        · rcases List.mem_cons.1 hi with rfl | hi
          · omega
          · exact h₁ i (List.mem_cons_of_mem _ hi)

/-- The nearest entry: no entry is nearer, and every entry of lower index is farther (R193). -/
theorem nearestEntry_spec (cfg : Config) (w : Word) :
    (∀ i, lev w.symbols (cfg.wordlist (nearestEntry cfg w)).symbols ≤ lev w.symbols (cfg.wordlist i).symbols) ∧
    (∀ i, i.toNat < (nearestEntry cfg w).toNat →
      lev w.symbols (cfg.wordlist (nearestEntry cfg w)).symbols < lev w.symbols (cfg.wordlist i).symbols) := by
  obtain ⟨before, after, e, h₁, h₂⟩ :=
    scanNearest_split (fun i => lev w.symbols (readWL cfg i).symbols) 0 allIndices
  change 0 :: allIndices = before ++ nearestEntry cfg w :: after at e
  change ∀ i ∈ before, lev w.symbols (cfg.wordlist (nearestEntry cfg w)).symbols < lev w.symbols (cfg.wordlist i).symbols
    at h₁
  change ∀ i ∈ after, lev w.symbols (cfg.wordlist (nearestEntry cfg w)).symbols ≤ lev w.symbols (cfg.wordlist i).symbols
    at h₂
  have hmem : ∀ i, i ∈ before ++ nearestEntry cfg w :: after := fun i => e ▸ List.mem_cons_of_mem _ (mem_allIndices i)
  have hsorted : (before ++ nearestEntry cfg w :: after).Pairwise fun i j => i.toNat ≤ j.toNat := by
    rw [← e, List.pairwise_cons]
    exact ⟨fun j _ => Nat.zero_le _, allIndices_sorted.imp fun h => Nat.le_of_lt h⟩
  have hafter := (List.pairwise_cons.1 (List.pairwise_append.1 hsorted).2.1).1
  constructor
  · intro i
    rcases List.mem_append.1 (hmem i) with h | h
    · exact Nat.le_of_lt (h₁ i h)
    · rcases List.mem_cons.1 h with e | h
      · rw [e]
      · exact h₂ i h
  · intro i hi
    rcases List.mem_append.1 (hmem i) with h | h
    · exact h₁ i h
    · rcases List.mem_cons.1 h with e | h
      · rw [e] at hi
        exact absurd hi (Nat.lt_irrefl _)
      · exact absurd (hafter i h) (Nat.not_le_of_lt hi)

/-- The two properties of `nearestEntry_spec` determine an index: the nearest entry is unique. -/
theorem nearest_unique {d : Index → Nat} {m n : Index} (hm : (∀ i, d m ≤ d i) ∧ ∀ i, i.toNat < m.toNat → d m < d i)
    (hn : (∀ i, d n ≤ d i) ∧ ∀ i, i.toNat < n.toNat → d n < d i) : m = n := by
  apply BitVec.eq_of_toNat_eq
  have h₁ := hm.1 n
  have h₂ := hn.1 m
  rcases Nat.lt_trichotomy m.toNat n.toNat with h | h | h
  · have := hn.2 m h
    omega
  · exact h
  · have := hm.2 n h
    omega

/-! ## The prefix match -/

theorem strictPrefix_iff {u e : List Symbol} : strictPrefix u e = true ↔ u.length < e.length ∧ u <+: e := by
  rw [strictPrefix, Bool.and_eq_true, decide_eq_true_eq, beq_iff_eq, List.prefix_iff_eq_take]
  exact and_congr_right fun _ => eq_comm

theorem mem_prefixEntries {cfg : Config} {w : Word} {i : Index} :
    i ∈ prefixEntries cfg w ↔ w.symbols.length < (cfg.wordlist i).symbols.length ∧ w.symbols <+: (cfg.wordlist i).symbols := by
  rw [prefixEntries, List.mem_filter, strictPrefix_iff]
  exact and_iff_right (mem_allIndices i)

/-- P has exactly the element p. -/
theorem prefixEntries_eq_singleton {cfg : Config} {w : Word} {p : Index} :
    prefixEntries cfg w = [p] ↔ ∀ i, i ∈ prefixEntries cfg w ↔ i = p := by
  constructor
  · intro h i
    rw [h, List.mem_singleton]
  · intro h
    have hnd : (prefixEntries cfg w).Nodup := allIndices_nodup.filter _
    cases e : prefixEntries cfg w with
    | nil => exact absurd ((h p).2 rfl) (by simp [e])
    | cons a l =>
      rw [e] at h hnd
      have ha : a = p := (h a).1 List.mem_cons_self
      cases l with
      | nil => rw [ha]
      | cons b l =>
        have hb : b = p := (h b).1 (by simp)
        simp [ha, hb] at hnd

/-- SUGGEST's choice between its two response forms. -/
theorem suggestionOf_cases (n : Index) (l : List Index) :
    (∃ p, l = [p] ∧ suggestionOf n l = .ok (.suggestion 1 2 [knownSlot n, knownSlot p])) ∨
    ((∀ p, l ≠ [p]) ∧ suggestionOf n l = .ok (.suggestion 0 1 [knownSlot n])) := by
  cases l with
  | nil => exact .inr ⟨by simp, rfl⟩
  | cons p l =>
    cases l with
    | nil => exact .inl ⟨p, rfl, rfl⟩
    | cons q l => exact .inr ⟨by simp, rfl⟩

end Sys2Proof.Machine
end

