-- ==== Sys2Proof/Laws/PerInstr.lean ====
section
/-! SUPPORT. Statements about every instruction as syntax, one lemma per constructor of Instr (LAWS.json names the family). -/

namespace Sys2Proof.Laws.CommandWord

/-- A well-formed instruction decodes from its own command word (spec/30_encoding.md R61, R62). -/
def Statement (i : Instr) : Prop := i.WellFormed → decode (encode i) = .ok i

/-- The decoder on a packed word whose `OP` is known. -/
theorem decode_packCommand {op bits nwords wlen : Nat} (h₁ : op < 16) (h₂ : bits < 1024) (h₃ : nwords < 256)
    (h₄ : wlen < 32) :
    decode (packCommand op bits nwords wlen) =
      match (generalizing := false) op with
      | 1 => .ok (.add bits)
      | 2 => .ok (.sub bits)
      | 3 => .ok (.enc bits)
      | 4 => .ok (.dec nwords)
      | 5 => .ok .wstr
      | 6 => .ok (.widx wlen)
      | 7 => .ok (.suggest wlen)
      | _ => .error (.reservedOp (cmdOP (packCommand op bits nwords wlen))) := by
  obtain ⟨hr, ho, hb, hn, hl⟩ := cmd_fields_packCommand op bits nwords wlen h₁ h₂ h₃ h₄
  rw [decode_of_mask h₁ ((mask_eq_iff _ op h₁).2 ⟨hr, ho⟩), hb, hn, hl] <;> interval_cases op <;> rfl

theorem add (bits : Nat) : Statement (.add bits) := fun h =>
  decode_packCommand (by decide) (by simpa [Instr.WellFormed, Instr.wellFormed] using h) (by decide) (by decide)

theorem sub (bits : Nat) : Statement (.sub bits) := fun h =>
  decode_packCommand (by decide) (by simpa [Instr.WellFormed, Instr.wellFormed] using h) (by decide) (by decide)

theorem enc (bits : Nat) : Statement (.enc bits) := fun h =>
  decode_packCommand (by decide) (by simpa [Instr.WellFormed, Instr.wellFormed] using h) (by decide) (by decide)

theorem dec (nwords : Nat) : Statement (.dec nwords) := fun h =>
  decode_packCommand (by decide) (by decide) (by simpa [Instr.WellFormed, Instr.wellFormed] using h) (by decide)

theorem wstr : Statement .wstr := fun _ => decode_packCommand (by decide) (by decide) (by decide) (by decide)

theorem widx (wlen : Nat) : Statement (.widx wlen) := fun h =>
  decode_packCommand (by decide) (by decide) (by decide) (by simpa [Instr.WellFormed, Instr.wellFormed] using h)

theorem suggest (wlen : Nat) : Statement (.suggest wlen) := fun h =>
  decode_packCommand (by decide) (by decide) (by decide) (by simpa [Instr.WellFormed, Instr.wellFormed] using h)

end Sys2Proof.Laws.CommandWord
end

