-- ==== Sys2Proof/Laws/Host.lean ====
section
/-! SUPPORT. A host's commands: what is on the ports of its requests, and the result of issuing each operation (spec/30_encoding.md
R75, R76). -/

namespace Sys2Proof.Machine

/-! ## The ports of a host's request -/

@[simp] theorem valueRequest_cmd (i : Instr) (a b : Value) : (valueRequest i a b).cmd = encode i := rfl

@[simp] theorem valueRequest_opa (i : Instr) (a b : Value) : (valueRequest i a b).opa = a := rfl

@[simp] theorem valueRequest_opb (i : Instr) (a b : Value) : (valueRequest i a b).opb = b := rfl

@[simp] theorem slotRequest_cmd (i : Instr) (slots : List Slot) : (slotRequest i slots).cmd = encode i := rfl

@[simp] theorem wordRequest_cmd (i : Instr) (w : Word) : (wordRequest i w).cmd = encode i := rfl

/-- An instruction that decodes from its own command word gets its own response. -/
theorem issue_of_encode {cfg : Config} {i : Instr} {req : Request} (h : decode (encode i) = .ok i)
    (hreq : req.cmd = encode i) : issue cfg req = respond cfg i req := by
  rw [issue, hreq, h]

theorem decode_add {W : Nat} (h : W < 1024) : decode (encode (.add W)) = .ok (.add W) :=
  Laws.CommandWord.add W (by simpa [Instr.WellFormed, Instr.wellFormed] using h)

theorem decode_sub {W : Nat} (h : W < 1024) : decode (encode (.sub W)) = .ok (.sub W) :=
  Laws.CommandWord.sub W (by simpa [Instr.WellFormed, Instr.wellFormed] using h)

theorem decode_enc {W : Nat} (h : W < 1024) : decode (encode (.enc W)) = .ok (.enc W) :=
  Laws.CommandWord.enc W (by simpa [Instr.WellFormed, Instr.wellFormed] using h)

theorem decode_dec {n : Nat} (h : n < 256) : decode (encode (.dec n)) = .ok (.dec n) :=
  Laws.CommandWord.dec n (by simpa [Instr.WellFormed, Instr.wellFormed] using h)

theorem decode_wstr : decode (encode .wstr) = .ok .wstr := Laws.CommandWord.wstr rfl

theorem decode_widx (w : Word) : decode (encode (.widx w.symbols.length)) = .ok (.widx w.symbols.length) :=
  Laws.CommandWord.widx _ (by have := w.fits; simp [Instr.WellFormed, Instr.wellFormed]; omega)

theorem decode_suggest (w : Word) : decode (encode (.suggest w.symbols.length)) = .ok (.suggest w.symbols.length) :=
  Laws.CommandWord.suggest _ (by have := w.fits; simp [Instr.WellFormed, Instr.wellFormed]; omega)

/-- The input slots of a slot request are the list it was made from. -/
theorem inputSlots_slotRequest (i : Instr) {slots : List Slot} (h : slots.length ≤ 24) :
    inputSlots slots.length (slotRequest i slots) = slots := by
  apply List.ext_getElem
  · simp [inputSlots, h]
  · intro k h₁ h₂
    simp [inputSlots, slotRequest, h₂]

/-- The input Word of a word request is the Word it was made from. -/
theorem inputWord_wordRequest (i : Instr) (w : Word) : inputWord w.symbols.length (wordRequest i w) = w := by
  have hf := w.fits
  have h : (wordRequest i w).chin.toList.take w.symbols.length = w.symbols := by
    apply List.ext_getElem
    · simp [hf]
    · intro k h₁ h₂
      simp [wordRequest, h₂]
  cases w with
  | mk symbols fits => simp only [inputWord, h]

/-- The slot at position 0 of a slot request. -/
theorem slotRequest_win_zero (i : Instr) (slot : Slot) (l : List Slot) : (slotRequest i (slot :: l)).win[0] = slot := by
  simp [slotRequest]

/-! ## ADD and SUB -/

theorem issue_add (cfg : Config) {W : Nat} (h : W < 1024) (a b : Value) :
    issue cfg (valueRequest (.add W) a b) = addResponse W (valueRequest (.add W) a b) := by
  rw [issue_of_encode (decode_add h) (valueRequest_cmd _ _ _), respond]

theorem issue_sub (cfg : Config) {W : Nat} (h : W < 1024) (a b : Value) :
    issue cfg (valueRequest (.sub W) a b) = subResponse W (valueRequest (.sub W) a b) := by
  rw [issue_of_encode (decode_sub h) (valueRequest_cmd _ _ _), respond]

theorem supported_toNat {W : BitVec 10} (h : W = 128 ∨ W = 256) : W.toNat = 128 ∨ W.toNat = 256 := by
  rcases h with rfl | rfl
  · exact .inl rfl
  · exact .inr rfl

theorem issueAdd_ok (cfg : Config) {W : BitVec 10} {a b : Value} (h : W = 128 ∨ W = 256) (ha : a.toNat < 2 ^ W.toNat)
    (hb : b.toNat < 2 ^ W.toNat) :
    issueAdd cfg W a b = .ok ⟨W, BitVec.ofNat 256 (modAdd W.toNat a.toNat b.toNat)⟩ := by
  rw [issueAdd, issue_add cfg W.isLt, addResponse_ok (supported_toNat h) ha hb]
  simp [valueResponse, Response.toTagged, valueRequest]

theorem issueSub_ok (cfg : Config) {W : BitVec 10} {a b : Value} (h : W = 128 ∨ W = 256) (ha : a.toNat < 2 ^ W.toNat)
    (hb : b.toNat < 2 ^ W.toNat) :
    issueSub cfg W a b = .ok ⟨W, BitVec.ofNat 256 (modSub W.toNat a.toNat b.toNat)⟩ := by
  rw [issueSub, issue_sub cfg W.isLt, subResponse_ok (supported_toNat h) ha hb]
  simp [valueResponse, Response.toTagged, valueRequest]

/-- An Ok result of SUB passed both checks. -/
theorem issueSub_eq_ok {cfg : Config} {W : BitVec 10} {a b : Value} {t : Tagged} (h : issueSub cfg W a b = .ok t) :
    (W.toNat = 128 ∨ W.toNat = 256) ∧ a.toNat < 2 ^ W.toNat ∧ b.toNat < 2 ^ W.toNat ∧ t.width = W ∧
      t.value.toNat = modSub W.toNat a.toNat b.toNat := by
  rw [issueSub, issue_sub cfg W.isLt] at h
  cases e : subResponse W.toNat (valueRequest (.sub W.toNat) a b) with
  | error kind info => rw [e] at h; cases h
  | ok ports =>
    rw [e] at h
    cases ports with
    | value res resw =>
      cases h
      obtain ⟨hW, ha, hb, hr, hv⟩ := subResponse_eq_value e
      exact ⟨hW, ha, hb, by rw [hr]; simp, hv⟩
    | slots _ _ => cases h
    | word _ _ => cases h
    | suggestion _ _ _ => cases h

/-- `resOf` is the `RES` of the pure response. -/
theorem resOf_of_encode {req : Request} {i : Instr} (h : decode (encode i) = .ok i) (hreq : req.cmd = encode i) :
    resOf req = (respond Config.platform i req).res := by
  have hd : decode ({ State.reset with request := req } : State).request.cmd = .ok i := by rw [hreq, h]
  rw [resOf, step_of_decode hd]
  rfl

theorem addOf_ok {W : Nat} {a b : Value} (h : W = 128 ∨ W = 256) (ha : a.toNat < 2 ^ W) (hb : b.toNat < 2 ^ W) :
    addOf W a b = some (BitVec.ofNat 256 (modAdd W a.toNat b.toNat)) := by
  rw [addOf, resOf_of_encode (decode_add (by omega)) (valueRequest_cmd _ _ _), respond, addResponse_ok h ha hb]
  rfl

theorem subOf_ok {W : Nat} {a b : Value} (h : W = 128 ∨ W = 256) (ha : a.toNat < 2 ^ W) (hb : b.toNat < 2 ^ W) :
    subOf W a b = some (BitVec.ofNat 256 (modSub W a.toNat b.toNat)) := by
  rw [subOf, resOf_of_encode (decode_sub (by omega)) (valueRequest_cmd _ _ _), respond, subResponse_ok h ha hb]
  rfl

/-! ## ENC and DEC -/

theorem issueEnc_ok (cfg : Config) {W : BitVec 10} {s : Value} (h : W = 128 ∨ W = 256) (hs : s.toNat < 2 ^ W.toNat) :
    issueEnc cfg W s = .ok ((groups (codeWord cfg s.toNat W.toNat) (wordCount W.toNat)).map knownSlot) := by
  rw [issueEnc, issue_of_encode (decode_enc W.isLt) (valueRequest_cmd _ _ _), respond, encResponse_ok (supported_toNat h) hs]
  rfl

theorem issueDec_eq (cfg : Config) {slots : List Slot} (h : slots.length ≤ 24) :
    issueDec cfg slots = (decResponse cfg slots.length (slotRequest (.dec slots.length) slots)).toTagged := by
  rw [issueDec, issue_of_encode (decode_dec (by omega)) (slotRequest_cmd _ _), respond]

/-! ## WSTR, WIDX and SUGGEST -/

theorem issueWstr_known (cfg : Config) (i : Index) : issueWstr cfg (knownSlot i) = .ok (cfg.wordlist i) := by
  rw [issueWstr, issue_of_encode decode_wstr (slotRequest_cmd _ _), respond, wstrResponse, slotRequest_win_zero]
  simp [Response.toWord, readWL, (cfg.wordlist i).fits]

theorem issueWidx_entry (cfg : Config) (i : Index) : issueWidx cfg (cfg.wordlist i) = .ok (knownSlot i) := by
  have h : lookupWord cfg (cfg.wordlist i) = some i := lookupWord_eq_some.2 rfl
  rw [issueWidx, issue_of_encode (decode_widx _) (wordRequest_cmd _ _), respond, widxResponse, inputWord_wordRequest, h]
  rfl

theorem issueWidx_absent {cfg : Config} {w : Word} (h : ∀ i, cfg.wordlist i ≠ w) :
    issueWidx cfg w = .error ⟨.unknownWord, 0⟩ := by
  rw [issueWidx, issue_of_encode (decode_widx w) (wordRequest_cmd _ _), respond, widxResponse, inputWord_wordRequest,
    lookupWord_eq_none.2 h]
  rfl

theorem issueSuggest_ok (cfg : Config) (w : Word) : ∃ g, issueSuggest cfg w = .ok g := by
  rw [issueSuggest, issue_of_encode (decode_suggest w) (wordRequest_cmd _ _), respond, suggestResponse, inputWord_wordRequest]
  rcases suggestionOf_cases (nearestEntry cfg w) (prefixEntries cfg w) with ⟨p, -, e⟩ | ⟨-, e⟩ <;> rw [e] <;> exact ⟨_, rfl⟩

end Sys2Proof.Machine
end

