-- ==== Sys2Proof/Tests/Slice0.lean ====
section
/-! SUPPORT. The model's own tests. Every expected value comes from spec/95_test_vectors.md (named V-… in the docstrings) or is
written out by hand from the encodings of spec/30_encoding.md. The last part has the witnesses: for each obligation with
hypotheses, states and operands that meet them. -/

namespace Sys2Proof.Tests

open Sys2Proof.Machine

/-! ## WellFormed refuses each field that does not fit its place -/

theorem test_illFormed_add : ¬ (Instr.add 1024).WellFormed := by decide

theorem test_illFormed_sub : ¬ (Instr.sub 1024).WellFormed := by decide

theorem test_illFormed_enc : ¬ (Instr.enc 1024).WellFormed := by decide

theorem test_illFormed_dec : ¬ (Instr.dec 256).WellFormed := by decide

theorem test_illFormed_widx : ¬ (Instr.widx 32).WellFormed := by decide

theorem test_illFormed_suggest : ¬ (Instr.suggest 32).WellFormed := by decide

/-! ## Command words, written bit by bit: `RSV` `WLEN` `NWORDS` `BITS` `OP` -/

/-- V-M1, V-M4. -/
theorem test_decode_add :
    decode 0b00000_00000_00000000_0010000000_0001#32 = .ok (.add 128) ∧
    decode 0b00000_00000_00000000_0100000000_0001#32 = .ok (.add 256) := by decide

/-- V-M2, V-M5. -/
theorem test_decode_sub :
    decode 0b00000_00000_00000000_0010000000_0010#32 = .ok (.sub 128) ∧
    decode 0b00000_00000_00000000_0100000000_0010#32 = .ok (.sub 256) := by decide

/-- V-M3, V-M14. -/
theorem test_decode_enc :
    decode 0b00000_00000_00000000_0010000000_0011#32 = .ok (.enc 128) ∧
    decode 0b00000_00000_00000000_0011000000_0011#32 = .ok (.enc 192) := by decide

/-- V-M7, V-M8, V-M19. -/
theorem test_decode_dec :
    decode 0b00000_00000_00001100_0000000000_0100#32 = .ok (.dec 12) ∧
    decode 0b00000_00000_00011000_0000000000_0100#32 = .ok (.dec 24) ∧
    decode 0b00000_00000_00001101_0000000000_0100#32 = .ok (.dec 13) := by decide

/-- V-M9. -/
theorem test_decode_wstr : decode 0b00000_00000_00000000_0000000000_0101#32 = .ok .wstr := by decide

/-- V-M10, V-M13. -/
theorem test_decode_widx :
    decode 0b00000_00111_00000000_0000000000_0110#32 = .ok (.widx 7) ∧
    decode 0b00000_11111_00000000_0000000000_0110#32 = .ok (.widx 31) := by decide

/-- V-M11, V-M12. -/
theorem test_decode_suggest :
    decode 0b00000_00110_00000000_0000000000_0111#32 = .ok (.suggest 6) ∧
    decode 0b00000_00000_00000000_0000000000_0111#32 = .ok (.suggest 0) := by decide

/-- V-M21 to V-M25. -/
theorem test_decode_illegal :
    decode 0x00000000#32 = .error (.reservedOp 0) ∧ decode 0x00000008#32 = .error (.reservedOp 8) ∧
    decode 0x0000000F#32 = .error (.reservedOp 15) ∧ decode 0x08000001#32 = .error (.reservedField 1) ∧
    decode 0xF8000C03#32 = .error (.reservedField 31) := by decide

/-- V-M26, V-M27: the fields an operation does not read are ignored. -/
theorem test_decode_ignores_unused_fields :
    decode 0x07FFC801#32 = .ok (.add 128) ∧ decode 0x00001004#32 = .ok (.dec 0) := by decide

/-- R67. -/
theorem test_encode :
    encode (.add 128) = 0x00000801#32 ∧ encode (.sub 256) = 0x00001002#32 ∧ encode (.enc 192) = 0x00000C03#32 ∧
    encode (.dec 24) = 0x00060004#32 ∧ encode .wstr = 0x00000005#32 ∧ encode (.widx 7) = 0x01C00006#32 ∧
    encode (.suggest 6) = 0x01800007#32 := by decide

theorem test_decodeTableWord :
    decodeTableWord 32 0x801 = some (.add 128) ∧ decodeTableWord 32 0x8000001 = none ∧ decodeTableWord 8 7 = some (.suggest 0) := by
  decide

/-! ## One step -/

/-- The state after reset with the request `req` on the request ports. -/
def drive (req : Request) : State := { State.reset with request := req }

/-- From reset with nothing placed the command word is 0, and the answer is `IllegalCommand` (V-M21). -/
theorem test_step_reset :
    step State.reset = .next { State.reset with response := some (.error .illegalCommand 0) } := rfl

/-- The very next step runs the word that is placed. -/
theorem test_step_withFetchWord :
    step (State.reset.withFetchWord 32 0x801) = exec (.add 128) (State.reset.withFetchWord 32 0x801) := rfl

/-- The `STATUS` codes of R221. -/
theorem test_errorCode :
    [ErrorKind.invalidChecksum, .invalidWordCount, .unknownWord, .insufficientShares, .bitWidthMismatch,
      .unsupportedBitWidth, .illegalCommand].map errorCode = [1, 2, 3, 4, 5, 6, 7] := by decide

/-! ## ADD and SUB -/

def m128 : Value := 0xffffffffffffffffffffffffffffffff

def m256 : Value := 0xffffffffffffffffffffffffffffffffffffffffffffffffffffffffffffffff

def h128 : Value := 0x80000000000000000000000000000000

/-- V-A3, V-A18. -/
theorem test_add_wraps : addOf 128 m128 1 = some 0 ∧ addOf 256 m128 1 = some 0x100000000000000000000000000000000 := by
  decide +kernel

/-- V-A23, V-A25. -/
theorem test_add_errors :
    issue configT (valueRequest (.add 128) 0x100000000000000000000000000000000 0) = .error .bitWidthMismatch 0 ∧
    issue configT (valueRequest (.add 192) 0x100000000000000000000000000000000000000000000000000 0) =
      .error .unsupportedBitWidth 0 := by decide +kernel

/-- V-A10, V-A19. -/
theorem test_sub_wraps :
    subOf 128 5 7 = some 0xfffffffffffffffffffffffffffffffe ∧ subOf 256 0 1 = some m256 := by decide +kernel

/-- V-A9, V-A24. -/
theorem test_sub_order_and_range :
    subOf 128 7 5 = some 2 ∧
    issue configT (valueRequest (.sub 128) 0 0x100000000000000000000000000000001) = .error .bitWidthMismatch 0 := by
  decide +kernel

/-! ## ENC and DEC -/

def secret128 : Value := 0x000102030405060708090a0b0c0d0e0f

def secret256 : Value := 0x000102030405060708090a0b0c0d0e0f101112131415161718191a1b1c1d1e1f

/-- V-E7, V-T6: the last slot is 251 under SHA-256 and 247 under configuration T. -/
theorem test_enc_128 :
    issueEnc configS 128 secret128 = .ok [0, 64, 1030, 64, 643, 28, 257, 266, 88, 771, 540, 251] ∧
    issueEnc configT 128 secret128 = .ok [0, 64, 1030, 64, 643, 28, 257, 266, 88, 771, 540, 247] := by decide +kernel

/-- V-E19, V-E14. -/
theorem test_enc_256 :
    issueEnc configS 256 secret256 = .ok [0, 64, 1030, 64, 643, 28, 257, 266, 88, 771, 540, 241, 8, 1096, 610, 1045, 176,
      1478, 50, 417, 1422, 116, 963, 1891] ∧
    issueEnc configS 256 m256 = .ok (List.replicate 23 2047 ++ [1967]) := by decide +kernel

/-- V-E8, V-E10: a checksum bit flip is caught; this entropy bit flip is not. -/
theorem test_dec_checksum :
    issueDec configS [0, 64, 1030, 64, 643, 28, 257, 266, 88, 771, 540, 250] = .error ⟨.invalidChecksum, 0⟩ ∧
    issueDec configS (1024 :: List.replicate 10 0 ++ [3]) = .ok ⟨128, h128⟩ := by decide +kernel

/-- V-D8, V-D9, V-D10: the first unknown slot, an unknown slot before the checksum, the count before an unknown slot. -/
theorem test_dec_order_of_checks :
    issueDec configT [0, 0, 0, 0x800, 0x800, 0, 0, 0, 0, 0, 0, 5] = .error ⟨.unknownWord, 3⟩ ∧
    issueDec configT (List.replicate 11 0 ++ [0xFFF]) = .error ⟨.unknownWord, 11⟩ ∧
    issueDec configT (0x800 :: List.replicate 10 0) = .error ⟨.invalidWordCount, 0⟩ := by decide +kernel

/-! ## WSTR, WIDX and SUGGEST under configuration T -/

/-- A Word of up to 31 characters. -/
def word (s : String) (h : s.toList.length ≤ 31 := by decide) : Word :=
  ⟨s.toList.map fun c => BitVec.ofNat 8 c.toNat, by simpa using h⟩

/-- V-W1, V-W2, V-W3. -/
theorem test_wstr :
    issue configT (slotRequest .wstr [0x000]) = .ok (.word 4 [0x61, 0x61, 0x61, 0x61]) ∧
    issue configT (slotRequest .wstr [0x7FF]) = .ok (.word 7 [0x63, 0x61, 0x70, 0x74, 0x61, 0x69, 0x6e]) ∧
    issue configT (slotRequest .wstr [0x800]) = .error .unknownWord 0 := by decide +kernel

/-- V-W4, V-W5, V-W6. -/
theorem test_widx :
    issueWidx configT (word "captain") = .ok 0x7FF ∧ issueWidx configT (word "abcd") = .ok 0x053 ∧
    issueWidx configT (word "captai") = .error ⟨.unknownWord, 0⟩ := by decide +kernel

/-- V-W8, V-W9. -/
theorem test_widx_exact :
    issueWidx configT (word "") = .error ⟨.unknownWord, 0⟩ ∧ issueWidx configT (word "Abcd") = .error ⟨.unknownWord, 0⟩ := by
  decide +kernel

/-- V-L3, V-L4, V-L5, V-L9. -/
theorem test_lev :
    lev [] (word "abc").symbols = 3 ∧ lev (word "ab").symbols (word "ba").symbols = 2 ∧
    lev (word "kitten").symbols (word "sitting").symbols = 3 ∧ lev (word "zoo").symbols (word "zone").symbols = 2 := by
  decide +kernel

/-- V-F7: "aab" is at distance 1 from "aaab" (1), "aaba" (8) and others, and the lowest index wins. -/
theorem test_nearest_tie :
    scanNearest (fun i => lev (word "aab").symbols (wordlistT i).symbols) 0 2 [0, 1, 2, 8, 16, 2047] = 1 := by decide +kernel

/-- Every entry of configuration T but "captain" has four symbols. -/
theorem wordlistT_length {i : Index} (h : i ≠ 2047) : (wordlistT i).symbols.length = 4 := by
  rw [wordlistT, if_neg h]
  rfl

/-- V-F1: "captai" is the prefix of "captain" alone, and "captain" is nearest, at distance 1 (R190's own example). -/
theorem test_suggest_captai :
    issue configT (wordRequest (.suggest 6) (word "captai")) = .ok (.suggestion 1 2 [0x7FF, 0x7FF]) := by
  have hp : prefixEntries configT (word "captai") = [2047] := by decide +kernel
  have hn : nearestEntry configT (word "captai") = 2047 := by
    have h₁ : lev (word "captai").symbols (wordlistT 2047).symbols = 1 := by decide +kernel
    have far : ∀ i : Index, i ≠ 2047 → 2 ≤ lev (word "captai").symbols (wordlistT i).symbols := by
      intro i hi
      rw [lev_eq_editDist]
      have := length_le_editDist (word "captai").symbols.reverse (wordlistT i).symbols.reverse
      rw [List.length_reverse, List.length_reverse, wordlistT_length hi] at this
      have h6 : (word "captai").symbols.length = 6 := by decide +kernel
      omega
    have spec := nearestEntry_spec configT (word "captai")
    generalize nearestEntry configT (word "captai") = n at spec ⊢
    refine nearest_unique (d := fun i => lev (word "captai").symbols (wordlistT i).symbols) spec ⟨?_, ?_⟩
    · intro i
      rcases eq_or_ne i 2047 with rfl | hi
      · exact le_refl _
      · have := far i hi
        omega
    · intro i hi
      have := far i (by rintro rfl; exact absurd hi (by decide))
      omega
  have hw : inputWord 6 (wordRequest (.suggest 6) (word "captai")) = word "captai" :=
    inputWord_wordRequest (.suggest 6) (word "captai")
  rw [issue_of_encode (Laws.CommandWord.suggest 6 (by decide)) (wordRequest_cmd _ _), respond, suggestResponse, hw, hp, hn]
  rfl

/-! ## Pseudo-operations and host forms -/

/-- V-S2. -/
theorem test_split : split configT 128 3 5 = .ok ⟨5, 0xfffffffffffffffffffffffffffffffe, 7⟩ := by decide +kernel

/-- V-J5, V-J3: C is not read when all three are present; the three joins of shares that are no triple differ (R179). -/
theorem test_join :
    join configT (some ⟨128, 3⟩) (some ⟨128, 2⟩) (some ⟨128, 9⟩) = .ok ⟨128, 5⟩ ∧
    joinAC configT 128 3 9 = .ok ⟨128, 0xfffffffffffffffffffffffffffffffd⟩ ∧ joinBC configT 128 2 9 = .ok ⟨128, 0xd⟩ ∧
    join configT none (some ⟨128, 2⟩) (some ⟨128, 1⟩) = .ok ⟨128, 5⟩ := by decide +kernel

/-- V-J6, V-J8, V-J9, V-J10. -/
theorem test_join_errors :
    join configT (some ⟨128, 3⟩) none none = .error ⟨.insufficientShares, 0⟩ ∧
    join configT (some ⟨64, 3⟩) (some ⟨64, 2⟩) none = .error ⟨.unsupportedBitWidth, 0⟩ ∧
    join configT (some ⟨64, 3⟩) none none = .error ⟨.insufficientShares, 0⟩ ∧
    join configT (some ⟨128, 3⟩) (some ⟨256, 2⟩) (some ⟨128, 1⟩) = .error ⟨.bitWidthMismatch, 0⟩ := by decide +kernel

/-- V-T16, V-T18: the last word of the mnemonic of 0xff, and its mistyped form. -/
theorem test_word_codec :
    encodeWords configT 128 0xff = .ok (List.replicate 10 (word "aaaa") ++ [word "aaab", word "captain"]) ∧
    decodeWords configT (List.replicate 10 (word "aaaa") ++ [word "aaab", word "captai"]) = .error ⟨.unknownWord, 11⟩ := by
  decide +kernel

/-- V-H1, V-H3, V-H5 to V-H8, V-H11. -/
theorem test_host_forms :
    hexString false 128 5 = "00000000000000000000000000000005" ∧
    hexString true 128 m128.toNat = "0xffffffffffffffffffffffffffffffff" ∧
    hexBits 20 = .ok (some 128) ∧ hexBits 33 = .ok (some 256) ∧ hexBits 65 = .error ⟨.unsupportedBitWidth, 0⟩ ∧
    hexBits 0 = .ok none ∧ mnemBits 18 = .error ⟨.invalidWordCount, 0⟩ := by decide +kernel

/-- V-H12, V-H14. -/
theorem test_secretOfBytes :
    secretOfBytes ((List.range 16).map (BitVec.ofNat 8)) = .ok ⟨128, secret128⟩ ∧
    secretOfBytes ((List.range 20).map (BitVec.ofNat 8)) = .error ⟨.unsupportedBitWidth, 0⟩ := by decide +kernel

/-- Program P5, lines 1 to 3, 7, 9 and 10, and a line that binds nothing; the text of two lines. -/
theorem test_host_program :
    (runLines configT [("s", .value 0x10), ("A", .value 0xff)]
      [.sub "B" 128 (.var "s") (.var "A"), .sub "C" 128 (.var "A") (.var "B"), .enc "mA" 128 (.var "A"),
        .dec "wA" "a" (.var "mA"), .add "t" 128 (.var "a") (.var "a"), .sub "r" 128 (.var "t") (.var "C"),
        .enc "r" 192 (.var "s")]).map (fun x => (x.1.lookup "C", x.1.lookup "wA", x.1.lookup "r")) =
      some (some (.value 0x1ee), some (.width 128), some (.value 0x10)) ∧
    (Line.sub "r" 128 (.var "t") (.lit 0x1ee)).text = "%r = SUB.128 %t, 0x1ee" ∧
    (Line.dec "w" "s" (.lit [0, 0x800])).text = "(%w, %s) = DEC [0, ?]" := by decide +kernel

/-! ## Witnesses: states and operands that meet the hypotheses of each obligation that has some -/

theorem witness_DecodeOfEncode :
    (Instr.add 1023).WellFormed ∧ (Instr.sub 0).WellFormed ∧ (Instr.enc 1023).WellFormed ∧ (Instr.dec 255).WellFormed ∧
    Instr.wstr.WellFormed ∧ (Instr.widx 31).WellFormed ∧ (Instr.suggest 0).WellFormed := by decide

theorem witness_CommandWordSelectsRow :
    0x07FFFFF1#32 &&& 0xF800000F#32 = 1#32 ∧ 0x07FFFFF2#32 &&& 0xF800000F#32 = 2#32 ∧
    0x07FFFFF3#32 &&& 0xF800000F#32 = 3#32 ∧ 0x07FFFFF4#32 &&& 0xF800000F#32 = 4#32 ∧
    0x07FFFFF5#32 &&& 0xF800000F#32 = 5#32 ∧ 0x07FFFFF6#32 &&& 0xF800000F#32 = 6#32 ∧
    0x07FFFFF7#32 &&& 0xF800000F#32 = 7#32 ∧ decode 0x07FFFFF7#32 = .ok (.suggest 31) ∧
    (drive { Request.zero with cmd := 0x07FFFFF0 }).request.cmd &&& 0xF800000F#32 = 0#32 ∧
    8 ≤ ((drive { Request.zero with cmd := 0x07FFFFF8 }).request.cmd &&& 0xF800000F#32).toNat ∧
    8 ≤ ((drive { Request.zero with cmd := 0x08000001 }).request.cmd &&& 0xF800000F#32).toNat := by decide

theorem witness_EncodeOfDecode :
    decode 0x07FFFFF1#32 = .ok (.add 1023) ∧ decode 0x07FFFFF4#32 = .ok (.dec 255) ∧ decode 0x07FFFFF5#32 = .ok .wstr ∧
    decode 0x07FFFFF6#32 = .ok (.widx 31) := by decide

theorem witness_StepRunsDecodedInstruction :
    decode (drive (valueRequest (.sub 256) 1 2)).request.cmd = .ok (.sub 256) := by decide

/-- `OP` = 0, 8 and 15, `RSV` = 1 and 31, and the legal words with `OP` = 1 and 7. -/
theorem witness_IllegalCommandAnswered :
    let illegal := fun w : BitVec 32 =>
      w.extractLsb' 27 5 ≠ 0 ∨ w.extractLsb' 0 4 = 0 ∨ 8 ≤ (w.extractLsb' 0 4).toNat
    illegal (drive { Request.zero with cmd := 0x00000000 }).request.cmd ∧
    illegal (drive { Request.zero with cmd := 0x00000008 }).request.cmd ∧
    illegal (drive { Request.zero with cmd := 0x0000000F }).request.cmd ∧
    illegal (drive { Request.zero with cmd := 0x08000001 }).request.cmd ∧
    illegal (drive { Request.zero with cmd := 0xF8000007 }).request.cmd ∧
    ¬ illegal (drive { Request.zero with cmd := 0x07FFFFF1 }).request.cmd ∧
    ¬ illegal (drive { Request.zero with cmd := 0x00000007 }).request.cmd := by decide

theorem witness_ResponsesDoNotDependOnOrder :
    (∃ t₁ t₁₂ t₂ t₂₁ : State,
      step { State.reset with request := valueRequest (.add 128) 1 2 } = .next t₁ ∧
      step { t₁ with request := valueRequest (.enc 256) 3 0 } = .next t₁₂ ∧
      step { State.reset with request := valueRequest (.enc 256) 3 0 } = .next t₂ ∧
      step { t₂ with request := valueRequest (.add 128) 1 2 } = .next t₂₁) ∧
    (∃ t, step (drive (valueRequest (.add 128) 1 2)) = .next t) ∧
    (drive (slotRequest .wstr [knownSlot 2047])).request.cmd = 0x00000005#32 ∧
    (drive (slotRequest .wstr [knownSlot 2047])).request.win[0] = knownSlot 2047 := by
  obtain ⟨r₁, h₁⟩ := step_answers { State.reset with request := valueRequest (.add 128) 1 2 }
  obtain ⟨r₂, h₂⟩ := step_answers { State.reset with request := valueRequest (.enc 256) 3 0 }
  exact ⟨⟨_, _, _, _, h₁, (step_answers _).choose_spec, h₂, (step_answers _).choose_spec⟩, ⟨_, h₁⟩, rfl, rfl⟩

/-- For each row two states that agree on what the row reads and differ on the rest. -/
theorem witness_UnusedFieldsAndPortsIgnored :
    let agree := fun (a b : Request) (op : BitVec 32) =>
      a.cmd &&& 0xF800000F#32 = b.cmd &&& 0xF800000F#32 ∧ a.cmd &&& 0xF800000F#32 = op ∧ a ≠ b
    let a := { valueRequest (.add 128) 5 7 with win := Vector.replicate 24 3 }
    let b := { valueRequest (.add 128) 5 7 with cmd := 0x07FFC801 }
    let c := { valueRequest (.enc 128) 5 7 with cmd := 0x07FFC803 }
    let d := slotRequest (.dec 12) (List.replicate 12 3 ++ [0x800])
    let e := { slotRequest (.dec 12) (List.replicate 12 3) with cmd := 0x07C33FF4, opa := 1 }
    let f := slotRequest .wstr [7, 8]
    let g := { slotRequest .wstr [7] with cmd := 0x07FFFFF5 }
    let p := { wordRequest (.widx 4) (word "abcd") with chin := (wordRequest (.widx 4) (word "abcdefg")).chin }
    let q := { wordRequest (.suggest 4) (word "abcd") with cmd := 0x013FFFF7 }
    (agree a b 1 ∧ a.cmd.extractLsb' 4 10 = b.cmd.extractLsb' 4 10 ∧ a.opa = b.opa ∧ a.opb = b.opb) ∧
    (agree { c with opb := 8 } c 3 ∧ c.cmd.extractLsb' 4 10 = 128 ∧ { c with opb := 8 }.opa = c.opa) ∧
    (agree d e 4 ∧ d.cmd.extractLsb' 14 8 = e.cmd.extractLsb' 14 8 ∧ d.cmd.extractLsb' 14 8 = 12 ∧
      ∀ k : Fin 24, k.val < 12 → d.win[k] = e.win[k]) ∧
    (agree f g 5 ∧ f.win[0] = g.win[0]) ∧
    (agree p (wordRequest (.widx 4) (word "abcd")) 6 ∧
      ∀ k : Fin 31, k.val < 4 → p.chin[k] = (wordRequest (.widx 4) (word "abcd")).chin[k]) ∧
    (agree q (wordRequest (.suggest 4) (word "abcd")) 7 ∧ q.cmd.extractLsb' 22 5 = 4) := by decide +kernel

theorem witness_StatusAndInfoCodes :
    ∃ (t : State) (r : Response), step (drive (valueRequest (.add 128) 1 2)) = .next t ∧ t.response = some r := by
  obtain ⟨r, h⟩ := step_answers (drive (valueRequest (.add 128) 1 2))
  exact ⟨_, r, h, rfl⟩

theorem witness_StepKeepsResponsesSafe :
    let s : State := { State.reset with response := some (.ok (.value m128 128)) }
    s.Inv ∧ ∃ t, step s = .next t := by
  refine ⟨?_, _, rfl⟩
  intro r h
  cases h
  exact ⟨.inl rfl, by decide +kernel⟩

theorem reset_inv : State.reset.Inv := fun _ h => nomatch h

/-- The operands of the Ok clause of AddCompletes and SubCompletes, of CarryDroppedDatapath and ArithmeticLaws at the ends of the range. -/
theorem witness_arithmetic :
    (drive (valueRequest (.add 128) m128 0)).request.opa.toNat < 2 ^ 128 ∧
    (drive (valueRequest (.add 128) m128 0)).request.opb.toNat < 2 ^ 128 ∧
    (drive (valueRequest (.sub 256) 0 m256)).request.opa.toNat < 2 ^ 256 ∧
    (drive (valueRequest (.sub 256) 0 m256)).request.opb.toNat < 2 ^ 256 ∧ h128.toNat < 2 ^ 128 := by decide +kernel

/-- AddCompletes and SubCompletes: W = 127 and 129 for the width clause, and one operand at 2^128 for the range clause. -/
theorem witness_AddCompletes_SubCompletes :
    (0x07FFFFF1#32 &&& 0xF800000F#32 = 1#32 ∧ 0x07FFFFF2#32 &&& 0xF800000F#32 = 2#32) ∧
    ((127 : Nat) ≠ 128 ∧ (127 : Nat) ≠ 256 ∧ (129 : Nat) ≠ 128 ∧ (129 : Nat) ≠ 256) ∧
    2 ^ 128 ≤ (drive (valueRequest (.add 128) 0x100000000000000000000000000000000 0)).request.opa.toNat ∧
    2 ^ 128 ≤ (drive (valueRequest (.sub 128) 0 0x100000000000000000000000000000000)).request.opb.toNat := by decide +kernel

theorem witness_ArithmeticRange :
    let s := drive (valueRequest (.add 128) m128 1)
    let t := drive (valueRequest (.sub 256) 0 1)
    exec (.add 128) s = .next { s with response := some (.ok (.value 0 128)) } ∧
    exec (.sub 256) t = .next { t with response := some (.ok (.value m256 256)) } := by
  refine ⟨exec_eq_next_iff.2 ?_, exec_eq_next_iff.2 ?_⟩ <;> decide +kernel

theorem witness_WrongWidthGivesWrongSum :
    m128.toNat < 2 ^ 128 ∧ (1 : Value).toNat < 2 ^ 128 ∧ 2 ^ 128 ≤ m128.toNat + (1 : Value).toNat := by decide +kernel

theorem witness_EncLayout128 : (drive (valueRequest (.enc 128) m128 0)).request.opa.toNat < 2 ^ 128 := by decide +kernel

theorem witness_EncCompletes :
    0x07FFFFF3#32 &&& 0xF800000F#32 = 3#32 ∧
    ((0 : Nat) ≠ 128 ∧ (0 : Nat) ≠ 256 ∧ (160 : Nat) ≠ 128 ∧ (160 : Nat) ≠ 256) ∧
    2 ^ 128 ≤ (drive (valueRequest (.enc 128) 0x100000000000000000000000000000000 0)).request.opa.toNat ∧
    (drive (valueRequest (.enc 256) m256 0)).request.opa.toNat < 2 ^ 256 := by decide +kernel

theorem exec_enc_ok {s : State} {W : Nat} (h : W = 128 ∨ W = 256) (ha : s.request.opa.toNat < 2 ^ W) :
    exec (.enc W) s = .next { s with response := some (.ok (.slots (BitVec.ofNat 8 (wordCount W))
      ((groups (codeWord Config.platform s.request.opa.toNat W) (wordCount W)).map knownSlot))) } :=
  exec_eq_next_iff.2 (encResponse_ok (cfg := Config.platform) h ha)

/-- ENC completes on the largest Secret of each width; the two states of EncInjective differ in an unread port. -/
theorem witness_EncInjective :
    (∃ n m, exec (.enc 128) (drive (valueRequest (.enc 128) m128 0)) =
      .next { drive (valueRequest (.enc 128) m128 0) with response := some (.ok (.slots n m)) }) ∧
    (∃ n m, exec (.enc 256) (drive (valueRequest (.enc 256) m256 0)) =
        .next { drive (valueRequest (.enc 256) m256 0) with response := some (.ok (.slots n m)) } ∧
      exec (.enc 256) (drive (valueRequest (.enc 256) m256 1)) =
        .next { drive (valueRequest (.enc 256) m256 1) with response := some (.ok (.slots n m)) }) := by
  exact ⟨⟨_, _, exec_enc_ok (s := drive (valueRequest (.enc 128) m128 0)) (.inl rfl) (by decide +kernel)⟩,
    ⟨_, _, exec_enc_ok (s := drive (valueRequest (.enc 256) m256 0)) (.inr rfl) (by decide +kernel),
      exec_enc_ok (s := drive (valueRequest (.enc 256) m256 1)) (.inr rfl) (by decide +kernel)⟩⟩

theorem witness_ByteFormBigEndian : (2 : Nat) ^ 128 - 1 < 2 ^ 128 ∧ (2 : Nat) ^ 256 - 1 < 2 ^ 256 := by decide +kernel

/-- The request of n slots that are 0 but for the last. -/
def lastSlot (n : Nat) (x : Slot) : Request := slotRequest (.dec n) (List.replicate (n - 1) 0 ++ [x])

/-- The checksum of the Secret 0 at width W, as the last slot of its mnemonic. -/
def zeroSum (W : Nat) : Slot := BitVec.ofNat 12 (checksum Config.platform 0 W)

theorem zeroSum_toNat {W : Nat} (h : W = 128 ∨ W = 256) : (zeroSum W).toNat = checksum Config.platform 0 W := by
  have hc := checksum_lt Config.platform 0 W h
  rw [zeroSum, BitVec.toNat_ofNat, Nat.mod_eq_of_lt]
  exact lt_of_lt_of_le hc (Nat.pow_le_pow_right (by decide) (by omega))

theorem slotUnk_of_lt {x : Slot} (h : x.toNat < 2 ^ 11) : slotUnk x = false := by
  rw [slotUnk, BitVec.getLsbD, Nat.testBit_lt_two_pow h]

theorem inputSlots_lastSlot {n : Nat} (h : n = 12 ∨ n = 24) (x : Slot) :
    inputSlots n (lastSlot n x) = List.replicate (n - 1) 0 ++ [x] := by
  have hl : (List.replicate (n - 1) 0 ++ [x]).length = n := by simp; omega
  have := inputSlots_slotRequest (.dec n) (slots := List.replicate (n - 1) 0 ++ [x]) (by omega)
  rw [hl] at this
  exact this

theorem known_lastSlot {n : Nat} (h : n = 12 ∨ n = 24) {x : Slot} (hx : x.toNat < 2 ^ 11) :
    firstUnknown (inputSlots n (lastSlot n x)) = none := by
  rw [inputSlots_lastSlot h, firstUnknown_eq_none]
  intro y hy
  rcases List.mem_append.1 hy with hy | hy
  · rw [List.eq_of_mem_replicate hy]; rfl
  · rw [List.mem_singleton.1 hy]; exact slotUnk_of_lt hx

/-- Slots that are 0 but for the last: the code word is the last. -/
theorem codeWord_lastSlot {n : Nat} (h : n = 12 ∨ n = 24) {x : Slot} (hx : x.toNat < 2 ^ 11) :
    joinGroups ((inputSlots n (lastSlot n x)).map slotIdx) = x.toNat := by
  have h0 : joinGroups ((List.replicate (n - 1) 0).map slotIdx) = 0 := by rcases h with rfl | rfl <;> rfl
  rw [inputSlots_lastSlot h, List.map_append, List.map_cons, List.map_nil, joinGroups_append, h0, slotIdx,
    BitVec.extractLsb'_toNat, Nat.shiftRight_zero, Nat.mod_eq_of_lt hx, Nat.zero_mul, Nat.zero_add]

theorem checksum_lt_slot {W : Nat} (h : W = 128 ∨ W = 256) : checksum Config.platform 0 W < 2 ^ 11 :=
  lt_of_lt_of_le (checksum_lt Config.platform 0 W h) (Nat.pow_le_pow_right (by decide) (by omega))

/-- DEC accepts the mnemonic of the Secret 0, whatever the hash is. -/
theorem dec_zero {n W : Nat} (h : (n = 12 ∧ W = 128) ∨ (n = 24 ∧ W = 256)) :
    exec (.dec n) (drive (lastSlot n (zeroSum W))) =
      .next { drive (lastSlot n (zeroSum W)) with response := some (.ok (.value 0 (BitVec.ofNat 10 W))) } := by
  have hw : W = 128 ∨ W = 256 := by omega
  have hn : n = 12 ∨ n = 24 := by omega
  have hc := checksum_lt Config.platform 0 W hw
  have hlt : (zeroSum W).toNat < 2 ^ 11 := by rw [zeroSum_toNat hw]; exact checksum_lt_slot hw
  rw [exec_eq_next_iff, respond]
  change decResponse Config.platform n (lastSlot n (zeroSum W)) = _
  rw [decResponse_known h (known_lastSlot hn hlt), codeWord_lastSlot hn hlt, zeroSum_toNat hw, verifyCodeWord_eq,
    Nat.div_eq_of_lt hc, Nat.mod_eq_of_lt hc, if_pos rfl]
  rfl

theorem witness_DecCountGivesWidth :
    0x07FFFFF4#32 &&& 0xF800000F#32 = 4#32 ∧ ((11 : Nat) ≠ 12 ∧ (11 : Nat) ≠ 24 ∧ (255 : Nat) ≠ 12 ∧ (255 : Nat) ≠ 24) ∧
    ∃ res resw, exec (.dec 24) (drive (lastSlot 24 (zeroSum 256))) =
      .next { drive (lastSlot 24 (zeroSum 256)) with response := some (.ok (.value res resw)) } :=
  ⟨by decide, by decide, _, _, dec_zero (.inr ⟨rfl, rfl⟩)⟩

/-- The first and the last position. -/
theorem witness_DecReportsFirstUnknown :
    (slotUnk (drive (slotRequest (.dec 12) [0x800, 0x800])).request.win[(0 : Fin 24)] = true ∧
      ∀ j : Fin 24, j < 0 → slotUnk (drive (slotRequest (.dec 12) [0x800, 0x800])).request.win[j] = false) ∧
    (slotUnk (drive (lastSlot 24 0xFFF)).request.win[(23 : Fin 24)] = true ∧
      ∀ j : Fin 24, j < 23 → slotUnk (drive (lastSlot 24 0xFFF)).request.win[j] = false) := by decide +kernel

/-- V of DecVerifiesChecksum for twelve slots. -/
def codeWordOf (s : State) : Nat :=
  ∑ j : Fin 24, if j.val < 12 then (slotIdx s.request.win[j]).toNat * 2 ^ (11 * (12 - 1 - j.val)) else 0

/-- The checksum of the Secret 0 for the Ok clause, and another checksum for the other one. -/
theorem witness_DecVerifiesChecksum :
    ∃ s t : State,
      (∀ j : Fin 24, j.val < 12 → slotUnk s.request.win[j] = false) ∧
      (∀ j : Fin 24, j.val < 12 → slotUnk t.request.win[j] = false) ∧
      codeWordOf s % 2 ^ (128 / 32) = checksum Config.platform (codeWordOf s / 2 ^ (128 / 32)) 128 ∧
      codeWordOf t % 2 ^ (128 / 32) ≠ checksum Config.platform (codeWordOf t / 2 ^ (128 / 32)) 128 := by
  have hc : checksum Config.platform 0 128 < 16 := checksum_lt Config.platform 0 128 (.inl rfl)
  have known : ∀ z : Slot, z.toNat < 2 ^ 11 → ∀ j : Fin 24, j.val < 12 → slotUnk (drive (lastSlot 12 z)).request.win[j] = false := by
    intro z hz j hj
    refine firstUnknown_eq_none.1 (known_lastSlot (n := 12) (.inl rfl) hz) _ (List.mem_iff_getElem.2 ⟨j.val, ?_, ?_⟩)
    · rw [inputSlots_length (.inl rfl)]; exact hj
    · simp [inputSlots, drive]
  have code : ∀ k, k < 16 → codeWordOf (drive (lastSlot 12 (BitVec.ofNat 12 k))) = k := by
    intro k hk
    have e : (BitVec.ofNat 12 k).toNat = k := by rw [BitVec.toNat_ofNat]; omega
    refine (joinGroups_inputSlots (.inl rfl) (lastSlot 12 (BitVec.ofNat 12 k))).symm.trans ?_
    rw [codeWord_lastSlot (.inl rfl) (by rw [e]; omega), e]
  have h16 : (checksum Config.platform 0 128 + 1) % 16 < 16 := Nat.mod_lt _ (by decide)
  refine ⟨drive (lastSlot 12 (BitVec.ofNat 12 (checksum Config.platform 0 128))),
    drive (lastSlot 12 (BitVec.ofNat 12 ((checksum Config.platform 0 128 + 1) % 16))),
    known _ (by rw [BitVec.toNat_ofNat]; omega), known _ (by rw [BitVec.toNat_ofNat]; omega), ?_, ?_⟩
  · rw [code _ hc]
    change _ % 16 = checksum _ (_ / 16) _
    rw [Nat.mod_eq_of_lt hc, Nat.div_eq_of_lt hc]
  · rw [code _ h16]
    change _ % 16 ≠ checksum _ (_ / 16) _
    rw [Nat.mod_eq_of_lt h16, Nat.div_eq_of_lt h16]
    omega

/-- ENC of the Secret 0 at both widths, and the request of its slots. -/
theorem witness_DecOfEnc : ∀ W ∈ [128, 256],
    ∃ (nwout : BitVec 8) (m : List Slot),
      exec (.enc W) (drive (valueRequest (.enc W) 0 0)) =
        .next { drive (valueRequest (.enc W) 0 0) with response := some (.ok (.slots nwout m)) } ∧
      (drive (slotRequest (.dec m.length) m)).request.win.toList.take m.length = m := by
  intro W hW
  have hw : W = 128 ∨ W = 256 := by simpa using hW
  refine ⟨_, _, exec_enc_ok (s := drive (valueRequest (.enc W) 0 0)) hw (Nat.two_pow_pos W), ?_⟩
  exact inputSlots_slotRequest _ (by rw [List.length_map, groups_length]; rcases hw with rfl | rfl <;> decide)

/-- Both lengths. -/
theorem witness_EncOfDec :
    (∃ resw, exec (.dec 12) (drive (lastSlot 12 (zeroSum 128))) = .next { drive (lastSlot 12 (zeroSum 128)) with
      response := some (.ok (.value (drive (valueRequest (.enc 128) 0 0)).request.opa resw)) }) ∧
    ∃ resw, exec (.dec 24) (drive (lastSlot 24 (zeroSum 256))) = .next { drive (lastSlot 24 (zeroSum 256)) with
      response := some (.ok (.value (drive (valueRequest (.enc 256) 0 0)).request.opa resw)) } :=
  ⟨⟨_, dec_zero (.inl ⟨rfl, rfl⟩)⟩, _, dec_zero (.inr ⟨rfl, rfl⟩)⟩

/-- The accepted mnemonic of the Secret 0 with its lowest checksum bit flipped, and with all eight flipped. -/
theorem witness_ChecksumChangeIsCaught :
    (∀ k : Fin 24, k.val + 1 < 12 →
      (drive (lastSlot 12 (zeroSum 128 ^^^ 1))).request.win[k] = (drive (lastSlot 12 (zeroSum 128))).request.win[k]) ∧
    (∀ k : Fin 24, k.val + 1 = 12 →
      (drive (lastSlot 12 (zeroSum 128 ^^^ 1))).request.win[k] = (drive (lastSlot 12 (zeroSum 128))).request.win[k] ^^^ 1) ∧
    (∀ k : Fin 24, k.val + 1 < 24 →
      (drive (lastSlot 24 (zeroSum 256 ^^^ 255))).request.win[k] = (drive (lastSlot 24 (zeroSum 256))).request.win[k]) ∧
    (∀ k : Fin 24, k.val + 1 = 24 →
      (drive (lastSlot 24 (zeroSum 256 ^^^ 255))).request.win[k] =
        (drive (lastSlot 24 (zeroSum 256))).request.win[k] ^^^ 255) ∧
    (1 : Slot) ≠ 0 ∧ (1 : Slot).toNat < 2 ^ (128 / 32) ∧ (255 : Slot) ≠ 0 ∧ (255 : Slot).toNat < 2 ^ (256 / 32) ∧
    (∃ res resw, exec (.dec 12) (drive (lastSlot 12 (zeroSum 128))) =
      .next { drive (lastSlot 12 (zeroSum 128)) with response := some (.ok (.value res resw)) }) ∧
    (∃ res resw, exec (.dec 24) (drive (lastSlot 24 (zeroSum 256))) =
      .next { drive (lastSlot 24 (zeroSum 256)) with response := some (.ok (.value res resw)) }) := by
  have low : ∀ (n : Nat) (x y : Slot) (k : Fin 24), k.val + 1 < n → n = 12 ∨ n = 24 →
      (drive (lastSlot n x)).request.win[k] = (drive (lastSlot n y)).request.win[k] := by
    intro n x y k hk hn
    simp only [drive, lastSlot, slotRequest, Fin.getElem_fin, Vector.getElem_ofFn]
    rw [List.getD_append _ _ _ _ (by simp; omega), List.getD_append _ _ _ _ (by simp; omega)]
  have last : ∀ (n : Nat) (x : Slot) (k : Fin 24), k.val + 1 = n → (drive (lastSlot n x)).request.win[k] = x := by
    intro n x k hk
    simp only [drive, lastSlot, slotRequest, Fin.getElem_fin, Vector.getElem_ofFn]
    rw [List.getD_append_right _ _ _ _ (by simp; omega)]
    simp [← hk]
  refine ⟨fun k hk => low 12 _ _ k hk (.inl rfl), fun k hk => ?_, fun k hk => low 24 _ _ k hk (.inr rfl), fun k hk => ?_,
    by decide, by decide, by decide, by decide, ⟨_, _, dec_zero (.inl ⟨rfl, rfl⟩)⟩, ⟨_, _, dec_zero (.inr ⟨rfl, rfl⟩)⟩⟩
  · rw [last 12 _ k hk, last 12 _ k hk]
  · rw [last 24 _ k hk, last 24 _ k hk]

theorem witness_WstrReadsWordlist :
    0x07FFFFF5#32 &&& 0xF800000F#32 = 5#32 ∧ slotUnk (drive (slotRequest .wstr [0x800])).request.win[0] = true ∧
    slotUnk (drive (slotRequest .wstr [0x7FF])).request.win[0] = false := by decide

/-- The Word of index 2047, and the empty Word, which is no entry. -/
theorem witness_WidxFindsWord :
    0x07FFFFF6#32 &&& 0xF800000F#32 = 6#32 ∧
    (let w := Config.platform.wordlist 2047
     w.symbols = (drive (wordRequest (.widx w.symbols.length) w)).request.chin.toList.take w.symbols.length) ∧
    (∀ i, (Config.platform.wordlist i).symbols ≠ (drive (wordRequest (.widx 0) (word ""))).request.chin.toList.take 0) := by
  refine ⟨by decide, ?_, ?_⟩
  · exact (congrArg Word.symbols (inputWord_wordRequest (.widx _) (Config.platform.wordlist 2047))).symm
  · intro i h
    have := Config.platform.wordlist_nonempty i
    rw [h] at this
    exact absurd this (by decide)

theorem witness_LookupsAreInverse : issueWidx configT (word "captain") = .ok (knownSlot 2047) := by decide +kernel

theorem witness_SuggestCompletes : 0x07C00007#32 &&& 0xF800000F#32 = 7#32 := by decide

theorem witness_SuggestCornerCases :
    let w := Config.platform.wordlist 0
    (drive (wordRequest (.suggest w.symbols.length) w)).request.chin.toList.take w.symbols.length = w.symbols :=
  congrArg Word.symbols (inputWord_wordRequest (.suggest _) (Config.platform.wordlist 0))

theorem witness_LevFacts : (word "ca").symbols <+: (word "captain").symbols := by decide +kernel

theorem witness_PresentedSuggestions : (1 : Index) ≠ 0 := by decide

theorem captai_absent (i : Index) : configT.wordlist i ≠ word "captai" :=
  lookupWord_eq_none.1 (by decide +kernel : lookupWord configT (word "captai") = none) i

theorem witness_CheckWordsReports :
    [word "captain", word "captai"][0]? = some (word "captain") ∧ (∃ i, configT.wordlist i = word "captain") ∧
    [word "captain", word "captai"][1]? = some (word "captai") ∧ (∀ i, configT.wordlist i ≠ word "captai") :=
  ⟨rfl, ⟨2047, by decide +kernel⟩, rfl, captai_absent⟩

theorem witness_DecodeWordsOfEncodeWords : m128.toNat < 2 ^ (128 : BitVec 10).toNat ∧ m256.toNat < 2 ^ (256 : BitVec 10).toNat := by
  decide +kernel

/-- Lists of 11 and 13 words; twelve words of which the last alone is absent; the words of twelve indices. -/
theorem witness_DecodeWordsCases :
    (let l := List.replicate 11 (word "aaaa"); l.length ≠ 12 ∧ l.length ≠ 24) ∧
    (let l := List.replicate 11 (word "aaaa") ++ [word "captai"]
     l.length = 12 ∧ l[11]? = some (word "captai") ∧ (∀ i, configT.wordlist i ≠ word "captai") ∧
      ∀ (j : Nat) (v : Word), j < 11 → l[j]? = some v → ∃ i, configT.wordlist i = v) ∧
    (let l := List.replicate 24 (word "aaaa"); l.length = 24 ∧ l = (List.replicate 24 (0 : Index)).map configT.wordlist) := by
  refine ⟨by decide, ⟨by decide, rfl, captai_absent, ?_⟩, by decide +kernel⟩
  intro j v hj hv
  have hv' : v = word "aaaa" := by interval_cases j <;> cases hv <;> rfl
  exact ⟨0, by rw [hv']; decide +kernel⟩

/-- SplitInvariant, JoinsComputeTheirFormulas and AnyTwoSharesRecoverSecret: widths and values at the ends of the range, and a
triple that satisfies both equations of R171. -/
theorem witness_split_and_join :
    ((2 : Value).toNat : Int) = (((5 : Value).toNat : Int) - (3 : Value).toNat) % 2 ^ (128 : BitVec 10).toNat ∧
    ((1 : Value).toNat : Int) = (2 * ((3 : Value).toNat : Int) - (5 : Value).toNat) % 2 ^ (128 : BitVec 10).toNat ∧
    m128.toNat < 2 ^ (128 : BitVec 10).toNat ∧ (0 : Value).toNat < 2 ^ (128 : BitVec 10).toNat ∧
    m256.toNat < 2 ^ (256 : BitVec 10).toNat := by decide +kernel

/-- ShareDistribution: a split, and a C with the parity of s (V-S7). -/
theorem witness_ShareDistribution :
    split configT 128 0x1234 0x77 = .ok ⟨0x77, 0x11bd, 0xffffffffffffffffffffffffffffeeba⟩ ∧
    (0xffffffffffffffffffffffffffffeeba : Value).toNat < 2 ^ (128 : BitVec 10).toNat ∧
    (0xffffffffffffffffffffffffffffeeba : Value).toNat % 2 = (0x1234 : Value).toNat % 2 := by decide +kernel

/-- JoinDispatcher: an unsupported width, two supported ones that differ, and two that agree. -/
theorem witness_JoinDispatcher :
    let supported := fun t : Tagged => t.width = 128 ∨ t.width = 256
    (¬ supported ⟨64, 3⟩) ∧ (supported ⟨128, 3⟩ ∧ supported ⟨256, 2⟩ ∧ (⟨128, 3⟩ : Tagged).width ≠ (⟨256, 2⟩ : Tagged).width) ∧
    (⟨256, 3⟩ : Tagged).width = (⟨256, 2⟩ : Tagged).width := by decide

theorem witness_HexDigitsOfSecret : m128.toNat < 2 ^ 128 ∧ m256.toNat < 2 ^ 256 ∧ 63 < 256 / 4 := by decide +kernel

theorem witness_HexStringWidth :
    (List.replicate 0 (15 : BitVec 4)).length = 0 ∧ 1 ≤ (List.replicate 1 (15 : BitVec 4)).length ∧
    (List.replicate 32 (15 : BitVec 4)).length ≤ 32 ∧ 33 ≤ (List.replicate 33 (15 : BitVec 4)).length ∧
    (List.replicate 64 (15 : BitVec 4)).length ≤ 64 ∧ 65 ≤ (List.replicate 65 (15 : BitVec 4)).length := by decide

theorem witness_MnemonicWidth : (11 : Nat) ≠ 12 ∧ (11 : Nat) ≠ 24 := by decide

theorem witness_SecretOfBytesBigEndian :
    (List.replicate 16 (255 : Byte)).length = 16 ∧ (List.replicate 32 (255 : Byte)).length = 32 ∧
    (List.replicate 17 (255 : Byte)).length ≠ 16 ∧ (List.replicate 17 (255 : Byte)).length ≠ 32 := by decide

theorem witness_ErrorBindsNoResult :
    ∃ req, (Line.enc "m" 192 (.lit 0)).request [] = some req ∧ (issue configT req).status ≠ 0 :=
  ⟨_, rfl, by decide +kernel⟩

end Sys2Proof.Tests
end

section
/-! PROOFS. What a step is in terms of `exec` and of the pure transaction `issue` (spec/00_scope.md R14; spec/10_state.md
R25). -/

namespace Sys2Proof.Machine

/-- The transaction on a word that decodes is that instruction's response (R14). -/
theorem issue_of_decode {cfg : Config} {req : Request} {i : Instr} (h : decode req.cmd = .ok i) :
    issue cfg req = respond cfg i req := by
  rw [issue, h]

/-- The transaction on a word the decoder rejects is `IllegalCommand` (R65). -/
theorem issue_of_reject {cfg : Config} {req : Request} {r : DecodeReject} (h : decode req.cmd = .error r) :
    issue cfg req = raise .illegalCommand 0 := by
  simp only [issue, h, rejectCommand]

/-- A step answers with the transaction on the request ports: whether or not the command word decodes, both sides give the
same response (R14). -/
theorem step_eq_answer_issue (s : State) : step s = .next (s.answer (issue Config.platform s.request)) := by
  cases h : decode s.request.cmd with
  | ok i => rw [step_of_decode h, issue_of_decode h]
  | error r => rw [step_of_reject h, issue_of_reject h]

/-- Settles O5: a step on a word that decodes and `exec` of the instruction both answer its pure response. -/
theorem stepRunsDecodedInstruction : Obligations.StepRunsDecodedInstruction := by
  intro s i h
  rw [step_of_decode h, exec_eq_answer]

/-- Settles O7: `answer` sets the response and nothing else, and a step answers with the transaction. -/
theorem everyRequestIsAnswered : Obligations.EveryRequestIsAnswered := by
  intro s
  exact step_eq_answer_issue s

end Sys2Proof.Machine
end

section
/-! PROOFS. The state of the block: the frame of an instruction and of a reset (spec/10_state.md R20, R36), and the invariant of
State, from the safety of each operation's response up to that of a step (spec/10_state.md R28 to R31). -/

namespace Sys2Proof.Machine

/-! ## Errors and values -/

/-- An error that the block raises with `INFO` 0 (R221). -/
theorem raise_safe {kind : ErrorKind} (h : kind ≠ .insufficientShares) : (raise kind 0).Safe :=
  ⟨h, by decide, fun _ => rfl⟩

/-- An `UnknownWord` at a position of `WIN` (R221, R224). -/
theorem raise_unknownWord_safe {k : Nat} (hk : k < 24) : (raise .unknownWord k).Safe := by
  refine ⟨by decide, ?_, fun h => absurd rfl h⟩
  rw [BitVec.toNat_ofNat]
  omega

theorem valueResponse_safe {v W : Nat} (hW : W = 128 ∨ W = 256) (hv : v < 2 ^ W) : (valueResponse v W).Safe := by
  refine ⟨hW.imp (congrArg _) (congrArg _), ?_⟩
  rw [toNat_ofNat_256 hW hv, toNat_ofNat_10 hW]
  exact hv

theorem map_knownSlot_known (l : List Index) : ∀ s ∈ l.map knownSlot, slotUnk s = false := by
  intro s hs
  obtain ⟨i, -, rfl⟩ := List.mem_map.1 hs
  exact slotUnk_knownSlot i

/-! ## ADD and SUB -/

theorem raise_checkArith_safe {W : Nat} {a b : Value} {kind : ErrorKind} (h : checkArith W a b = some kind) :
    (raise kind 0).Safe := by
  apply raise_safe
  rintro rfl
  rcases checkArith_cases W a b with e | e | e <;> cases h.symm.trans e

/-- A response that raises what `checkArith` reports, and past the check is a value below 2^W, is safe (R92, R94). -/
theorem safe_of_checkArith {W : Nat} {a b : Value} {r : Response}
    (herr : ∀ kind, checkArith W a b = some kind → r = raise kind 0)
    (hok : W = 128 ∨ W = 256 → a.toNat < 2 ^ W → b.toNat < 2 ^ W → ∃ v < 2 ^ W, r = valueResponse v W) : r.Safe := by
  cases h : checkArith W a b with
  | some kind =>
    rw [herr kind h]
    exact raise_checkArith_safe h
  | none =>
    obtain ⟨hW, ha, hb⟩ := checkArith_eq_none h
    obtain ⟨v, hv, rfl⟩ := hok hW ha hb
    exact valueResponse_safe hW hv

theorem addResponse_safe (W : Nat) (req : Request) : (addResponse W req).Safe :=
  safe_of_checkArith (fun _ h => by simp only [addResponse, h])
    fun hW ha hb => ⟨_, modAdd_lt _ _ _, addResponse_ok hW ha hb⟩

theorem subResponse_safe (W : Nat) (req : Request) : (subResponse W req).Safe :=
  safe_of_checkArith (fun _ h => by simp only [subResponse, h])
    fun hW ha hb => ⟨_, modSub_lt ha, subResponse_ok hW ha hb⟩

/-! ## ENC and DEC -/

/-- `NWOUT` of ENC is 12 or 24 and counts the groups, all of which are indices (R115). -/
theorem encResponse_safe (cfg : Config) (W : Nat) (req : Request) : (encResponse cfg W req).Safe := by
  rcases encResponse_cases cfg W req with ⟨-, e⟩ | ⟨-, -, e⟩ | ⟨hW, -, e⟩
  · rw [e]
    exact raise_safe (by decide)
  · rw [e]
    exact raise_safe (by decide)
  · rw [e]
    refine ⟨?_, ?_, map_knownSlot_known _⟩
    · rw [List.length_map, groups_length]
      rcases hW with rfl | rfl <;> rfl
    · rcases hW with rfl | rfl
      · exact .inr (.inl rfl)
      · exact .inr (.inr rfl)

theorem firstUnknown_lt {l : List Slot} {k : Nat} (h : firstUnknown l = some k) : k < l.length :=
  (List.findIdx?_eq_some_iff_findIdx_eq.1 h).1

/-- The code word of n slots less its W/32 checksum bits is a number of W bits (R133, R134). -/
theorem joinGroups_div_lt {l : List Index} {W : Nat} (h : (l.length = 12 ∧ W = 128) ∨ (l.length = 24 ∧ W = 256)) :
    joinGroups l / 2 ^ (W / 32) < 2 ^ W := by
  have hbits : W / 32 + W = 11 * l.length := by omega
  apply Nat.div_lt_of_lt_mul
  rw [← pow_add, hbits]
  exact joinGroups_lt l

theorem verifyCodeWord_safe {cfg : Config} {V W : Nat} (hW : W = 128 ∨ W = 256) (hV : V / 2 ^ (W / 32) < 2 ^ W) :
    (verifyCodeWord cfg V W).Safe := by
  rw [verifyCodeWord_eq]
  split
  · exact valueResponse_safe hW hV
  · exact raise_safe (by decide)

/-- DEC's three checks in order, and its value, which the count bounds (R131 to R136). -/
theorem decResponse_safe (cfg : Config) (n : Nat) (req : Request) : (decResponse cfg n req).Safe := by
  by_cases hn : n = 12 ∨ n = 24
  · have hlen := inputSlots_length hn req
    cases hk : firstUnknown (inputSlots n req) with
    | some k =>
      have hpos := firstUnknown_lt hk
      rw [decResponse_unknown hn hk]
      exact raise_unknownWord_safe (by omega)
    | none =>
      obtain ⟨W, hnW⟩ : ∃ W, (n = 12 ∧ W = 128) ∨ (n = 24 ∧ W = 256) :=
        hn.elim (fun h => ⟨128, .inl ⟨h, rfl⟩⟩) (fun h => ⟨256, .inr ⟨h, rfl⟩⟩)
      rw [decResponse_known hnW hk]
      refine verifyCodeWord_safe (hnW.imp And.right And.right) (joinGroups_div_lt ?_)
      rwa [List.length_map, hlen]
  · rw [decResponse_count (fun h => hn (.inl h)) (fun h => hn (.inr h))]
    exact raise_safe (by decide)

/-! ## WSTR, WIDX and SUGGEST -/

/-- An entry of the Wordlist has 1 to 31 symbols, so `WLENOUT` holds its length (R30, R150). -/
theorem wstrResponse_safe (cfg : Config) (req : Request) : (wstrResponse cfg req).Safe := by
  unfold wstrResponse
  split
  · exact raise_safe (by decide)
  · have hfits := (readWL cfg (slotIdx req.win[0])).fits
    refine ⟨?_, cfg.wordlist_nonempty _⟩
    rw [BitVec.toNat_ofNat, Nat.mod_eq_of_lt (by omega)]

theorem lookupResponse_safe (found : Option Index) : (lookupResponse found).Safe := by
  cases found with
  | some i => exact ⟨rfl, .inl rfl, map_knownSlot_known [i]⟩
  | none => exact raise_safe (by decide)

/-- `PFXV` is 1 with two slots and 0 with one (R190). -/
theorem suggestionOf_safe (n : Index) (l : List Index) : (suggestionOf n l).Safe := by
  rcases suggestionOf_cases n l with ⟨p, -, e⟩ | ⟨-, e⟩
  · rw [e]
    exact ⟨rfl, .inl ⟨rfl, rfl⟩, map_knownSlot_known [n, p]⟩
  · rw [e]
    exact ⟨rfl, .inr ⟨rfl, rfl⟩, map_knownSlot_known [n]⟩

/-! ## Every transaction, and the invariant of State -/

/-- Every operation's response is safe. What the two scans of the Wordlist find is generalized: no more than `found` and `l`
matters, and Lean is kept from evaluating the scans. -/
theorem respond_safe (cfg : Config) (i : Instr) (req : Request) : (respond cfg i req).Safe := by
  cases i with
  | add bits => exact addResponse_safe bits req
  | sub bits => exact subResponse_safe bits req
  | enc bits => exact encResponse_safe cfg bits req
  | dec nwords => exact decResponse_safe cfg nwords req
  | wstr => exact wstrResponse_safe cfg req
  | widx wlen =>
    rw [respond, widxResponse]
    generalize lookupWord cfg (inputWord wlen req) = found
    exact lookupResponse_safe found
  | suggest wlen =>
    rw [respond, suggestResponse]
    generalize prefixEntries cfg (inputWord wlen req) = l
    exact suggestionOf_safe _ l

theorem issue_safe (cfg : Config) (req : Request) : (issue cfg req).Safe := by
  cases h : decode req.cmd with
  | ok i =>
    rw [issue_of_decode h]
    exact respond_safe cfg i req
  | error r =>
    rw [issue_of_reject h]
    exact raise_safe (by decide)

@[simp] theorem State.answer_inv {s : State} {r : Response} : (s.answer r).Inv ↔ r.Safe := by
  simp [State.Inv]

theorem State.inv_of_response_eq_none {s : State} (h : s.response = none) : s.Inv := by
  simp [State.Inv, h]

/-- Settles O13: a step puts the transaction's response in the place of the one before, and that response is safe
whatever the request. -/
theorem stepKeepsResponsesSafe : Obligations.StepKeepsResponsesSafe := by
  intro s t _ h
  rw [step_eq_answer_issue] at h
  cases h
  exact State.answer_inv.2 (issue_safe Config.platform s.request)

/-- Settles O14: after reset no response has been given. -/
theorem resetResponsesSafe : Obligations.ResetResponsesSafe :=
  State.inv_of_response_eq_none rfl

/-! ## Frames -/

/-- Settles O8: each instruction answers its pure response, and `answer` writes the response alone. -/
theorem instructionsLeaveRequestPorts : Obligations.InstructionsLeaveRequestPorts := by
  intro i s
  exact ⟨_, exec_eq_answer i s⟩

/-- A step from a reset block is the step without the reset: it answers the same request, over whatever response stood
there. -/
theorem step_resetBlock (s : State) : step s.resetBlock = step s := by
  rw [step_eq_answer_issue, step_eq_answer_issue, State.resetBlock_request, State.resetBlock_answer]

/-- Settles O15: a reset clears the response, keeps the request ports, and the next step does not see it. -/
theorem resetChangesNoAnswer : Obligations.ResetChangesNoAnswer :=
  ⟨rfl, fun s => ⟨s.resetBlock_response, s.resetBlock_request, step_resetBlock s⟩⟩

end Sys2Proof.Machine
end

section
/-! PROOFS. The order of requests, and the byte form of a Secret (spec/20_memory.md R48, R41). -/

namespace Sys2Proof.Machine

/-! ## The order of requests -/

/-- The one state a step can give. -/
theorem step_eq_next_iff {s t : State} : step s = .next t ↔ t = s.answer (issue Config.platform s.request) := by
  rw [step_eq_answer_issue, Host.Outcome.next.injEq, eq_comm]

/-- The response to a request does not depend on the state it is issued in (R14, R48). -/
theorem response_of_step {s t : State} {r : Request} (h : step { s with request := r } = .next t) :
    t.response = some (issue Config.platform r) := by
  rw [step_eq_next_iff.1 h, State.answer_response]

/-- Repeating a request repeats its response and changes nothing (R48). -/
theorem step_of_step {s t : State} (h : step s = .next t) : step t = .next t := by
  rw [step_eq_next_iff.1 h, step_eq_next_iff, State.answer_request, State.answer_answer]

/-- WSTR of a known slot answers the configured entry (R151). -/
theorem wstrResponse_known {cfg : Config} {req : Request} {i : Index} (h : req.win[0] = knownSlot i) :
    wstrResponse cfg req = .ok (.word (BitVec.ofNat 5 (cfg.wordlist i).symbols.length) (cfg.wordlist i).symbols) := by
  simp [wstrResponse, h, readWL]

theorem issue_wstr_known {cfg : Config} {req : Request} {i : Index} (hcmd : req.cmd = encode .wstr)
    (hwin : req.win[0] = knownSlot i) : (issue cfg req).chout = some (cfg.wordlist i).symbols := by
  rw [issue_of_encode decode_wstr hcmd, respond, wstrResponse_known hwin, Response.chout]

/-- Settles O9: every response is the transaction on its own request, whatever the state it is issued in. -/
theorem responsesDoNotDependOnOrder : Obligations.ResponsesDoNotDependOnOrder := by
  refine ⟨?_, fun s t => step_of_step, ?_⟩
  · intro s s' t₁ t₁₂ t₂ t₂₁ r₁ r₂ h₁ h₁₂ h₂ h₂₁
    exact ⟨(response_of_step h₁₂).trans (response_of_step h₂).symm,
      (response_of_step h₂₁).trans (response_of_step h₁).symm⟩
  · intro s i hcmd hwin
    exact ⟨_, step_eq_answer_issue s, issue_wstr_known hcmd hwin⟩

/-! ## The byte form -/

theorem entBytes_getElem? {s W i : Nat} (h : i < W / 8) :
    (entBytes s W)[i]? = some (BitVec.ofNat 8 (s / 2 ^ (8 * (W / 8 - 1 - i)))) := by
  simp [entBytes, byteCount, h, Nat.shiftRight_eq_div_pow]

theorem fromBytes_entBytes {s n : Nat} (h : s < 2 ^ (8 * n)) : fromBytes (entBytes s (8 * n)) = s := by
  induction n generalizing s with
  | zero =>
    have hs : s = 0 := by simpa using h
    rw [hs]
    rfl
  | succ n ih =>
    have hdiv : s / 2 ^ 8 < 2 ^ (8 * n) := by
      apply Nat.div_lt_of_lt_mul
      rwa [← pow_add, Nat.add_comm]
    rw [entBytes_succ, fromBytes_append, ih hdiv, BitVec.toNat_ofNat, Nat.div_add_mod']

theorem entBytes_fromBytes (b : List Byte) : entBytes (fromBytes b) (8 * b.length) = b := by
  induction b using List.reverseRecOn with
  | nil => rfl
  | append_singleton b x ih =>
    have hx := x.isLt
    have hdiv : (fromBytes b * 2 ^ 8 + x.toNat) / 2 ^ 8 = fromBytes b := by omega
    have hlow : BitVec.ofNat 8 (fromBytes b * 2 ^ 8 + x.toNat) = x := by
      apply BitVec.eq_of_toNat_eq
      rw [BitVec.toNat_ofNat]
      omega
    rw [List.length_append, List.length_singleton, entBytes_succ, fromBytes_append, hdiv, hlow, ih]

/-- One more byte at the end moves every other byte up by one position. -/
theorem fromBytes_eq_sum (b : List Byte) :
    fromBytes b = ∑ k ∈ Finset.range b.length, (b.getD k 0).toNat * 2 ^ (8 * (b.length - 1 - k)) := by
  induction b using List.reverseRecOn with
  | nil => rfl
  | append_singleton b x ih =>
    rw [fromBytes_append, ih, List.length_append, List.length_singleton, Finset.sum_range_succ, Finset.sum_mul]
    congr 1
    · apply Finset.sum_congr rfl
      intro k hk
      have hk := Finset.mem_range.1 hk
      have hexp : 8 * (b.length + 1 - 1 - k) = 8 * (b.length - 1 - k) + 8 := by omega
      rw [List.getD_append _ _ _ _ hk, hexp, pow_add, mul_assoc]
    · simp

/-- Settles O26: the length and the bytes from the definition, and the two inverses and the sum by induction on the bytes. -/
theorem byteFormBigEndian : Obligations.ByteFormBigEndian := by
  refine ⟨?_, fun b => ⟨entBytes_fromBytes b, fromBytes_eq_sum b⟩⟩
  intro W s hW hs
  refine ⟨entBytes_length s W, fun i hi => entBytes_getElem? hi, ?_⟩
  rcases hW with rfl | rfl
  · exact fromBytes_entBytes (n := 16) hs
  · exact fromBytes_entBytes (n := 32) hs

end Sys2Proof.Machine
end

section
/-! PROOFS. The command word: its masks, its decoder and its encoder (spec/30_encoding.md R61 to R67). -/

namespace Sys2Proof

/-! ## What the decoder reads -/

/-- The mask of R62 on a word that decodes leaves its `OP`, which is 1 to 7. -/
theorem mask_of_decode_ok {w : BitVec 32} {i : Instr} (h : decode w = .ok i) :
    1 ≤ (w &&& 0xF800000F#32).toNat ∧ (w &&& 0xF800000F#32).toNat ≤ 7 := by
  obtain ⟨hrsv, hop₁, hop₇⟩ := fields_of_decode_ok h
  have hmask := (mask_eq_iff w (cmdOP w).toNat (cmdOP w).isLt).2 ⟨hrsv, rfl⟩
  rw [hmask, BitVec.toNat_ofNat]
  omega

/-- A word that decodes, row by row: its `OP` names the operation, and the field the row reads is the operand (R62, R63). -/
theorem decode_ok_cases {w : BitVec 32} {i : Instr} (h : decode w = .ok i) :
    ((cmdOP w).toNat = 1 ∧ i = .add (cmdBITS w).toNat) ∨ ((cmdOP w).toNat = 2 ∧ i = .sub (cmdBITS w).toNat) ∨
    ((cmdOP w).toNat = 3 ∧ i = .enc (cmdBITS w).toNat) ∨ ((cmdOP w).toNat = 4 ∧ i = .dec (cmdNWORDS w).toNat) ∨
    ((cmdOP w).toNat = 5 ∧ i = .wstr) ∨ ((cmdOP w).toNat = 6 ∧ i = .widx (cmdWLEN w).toNat) ∨
    ((cmdOP w).toNat = 7 ∧ i = .suggest (cmdWLEN w).toNat) := by
  obtain ⟨hrsv, hop₁, hop₇⟩ := fields_of_decode_ok h
  rw [decode_of_mask (cmdOP w).isLt ((mask_eq_iff w _ (cmdOP w).isLt).2 ⟨hrsv, rfl⟩)] at h
  generalize (cmdOP w).toNat = op at h hop₁ hop₇ ⊢
  interval_cases op <;> cases h <;> simp

/-! ## Masks of whole fields -/

theorem packCommand_getLsbD (op bits nwords wlen : Nat) {k : Nat} (hk : k < 32) :
    (packCommand op bits nwords wlen).getLsbD k =
      (op.testBit k || (decide (4 ≤ k) && bits.testBit (k - 4)) || (decide (14 ≤ k) && nwords.testBit (k - 14)) ||
        (decide (22 ≤ k) && wlen.testBit (k - 22))) := by
  simp only [packCommand, BitVec.getLsbD_ofNat, hk, decide_true, Bool.true_and, Nat.testBit_or, Nat.testBit_shiftLeft,
    ge_iff_le]

/-- Bit k of a word against a mask placed at `start` is bit k − `start` of the field there against the mask. -/
theorem field_and_getLsbD (w : BitVec 32) {m : Nat} (mask : BitVec m) (start k : Nat) :
    (decide (start ≤ k) && (w.extractLsb' start m &&& mask).getLsbD (k - start)) =
      (w.getLsbD k && (decide (start ≤ k) && mask.getLsbD (k - start))) := by
  by_cases hstart : start ≤ k
  · rw [BitVec.getLsbD_and, BitVec.getLsbD_extractLsb', Nat.add_sub_cancel' hstart]
    by_cases hm : k - start < m
    · simp [hstart, hm]
    · simp [hm, BitVec.getLsbD_of_ge mask _ (Nat.le_of_not_lt hm)]
  · simp [hstart]

/-- A mask made of one mask for each field acts on each field by itself, and clears `RSV` (R61). -/
theorem and_packCommand (w : BitVec 32) (op : BitVec 4) (bits : BitVec 10) (nwords : BitVec 8) (wlen : BitVec 5) :
    w &&& packCommand op.toNat bits.toNat nwords.toNat wlen.toNat =
      packCommand (cmdOP w &&& op).toNat (cmdBITS w &&& bits).toNat (cmdNWORDS w &&& nwords).toNat
        (cmdWLEN w &&& wlen).toNat := by
  apply BitVec.eq_of_getLsbD_eq
  intro k hk
  have hop : (cmdOP w &&& op).getLsbD k = (w.getLsbD k && op.getLsbD k) := by
    simpa [cmdOP] using field_and_getLsbD w op 0 k
  rw [BitVec.getLsbD_and, packCommand_getLsbD _ _ _ _ hk, packCommand_getLsbD _ _ _ _ hk]
  simp only [BitVec.testBit_toNat, hop, cmdBITS, cmdNWORDS, cmdWLEN, field_and_getLsbD, Bool.and_or_distrib_left]

/-- The mask of the rows that read `BITS`. -/
theorem and_bitsMask (w : BitVec 32) : w &&& 0x00003FFF#32 = packCommand (cmdOP w).toNat (cmdBITS w).toNat 0 0 := by
  have h := and_packCommand w (BitVec.allOnes 4) (BitVec.allOnes 10) 0#8 0#5
  simp only [BitVec.and_allOnes, BitVec.and_zero] at h
  exact h

/-- The mask of the row that reads `NWORDS`. -/
theorem and_nwordsMask (w : BitVec 32) : w &&& 0x003FC00F#32 = packCommand (cmdOP w).toNat 0 (cmdNWORDS w).toNat 0 := by
  have h := and_packCommand w (BitVec.allOnes 4) 0#10 (BitVec.allOnes 8) 0#5
  simp only [BitVec.and_allOnes, BitVec.and_zero] at h
  exact h

/-- The mask of the rows that read `WLEN`. -/
theorem and_wlenMask (w : BitVec 32) : w &&& 0x07C0000F#32 = packCommand (cmdOP w).toNat 0 0 (cmdWLEN w).toNat := by
  have h := and_packCommand w (BitVec.allOnes 4) 0#10 0#8 (BitVec.allOnes 5)
  simp only [BitVec.and_allOnes, BitVec.and_zero] at h
  exact h

/-- The mask of the row that reads no field. -/
theorem and_opMask (w : BitVec 32) : w &&& 0x0000000F#32 = packCommand (cmdOP w).toNat 0 0 0 := by
  have h := and_packCommand w (BitVec.allOnes 4) 0#10 0#8 0#5
  simp only [BitVec.and_allOnes, BitVec.and_zero] at h
  exact h

end Sys2Proof

namespace Sys2Proof.Machine

/-! ## Illegal command words -/

/-- A step on a word that decodes to nothing answers `IllegalCommand`. -/
theorem step_of_forall_decode_ne {s : State} (h : ∀ i, decode s.request.cmd ≠ .ok i) :
    step s = .next { s with response := some (.error .illegalCommand 0) } := by
  cases hd : decode s.request.cmd with
  | ok i => exact absurd hd (h i)
  | error r => exact step_of_reject hd

/-! ## The statements on the command word -/

/-- Settles O1: one law for each constructor, each from the fields of a packed word. -/
theorem decodeOfEncode : Obligations.DecodeOfEncode := by
  intro i hi
  cases i with
  | add bits => exact Laws.CommandWord.add bits hi
  | sub bits => exact Laws.CommandWord.sub bits hi
  | enc bits => exact Laws.CommandWord.enc bits hi
  | dec nwords => exact Laws.CommandWord.dec nwords hi
  | wstr => exact Laws.CommandWord.wstr hi
  | widx wlen => exact Laws.CommandWord.widx wlen hi
  | suggest wlen => exact Laws.CommandWord.suggest wlen hi

/-- Settles O2: each row by `decode_of_mask`; a word with another masked value does not decode, so it is rejected. -/
theorem commandWordSelectsRow : Obligations.CommandWordSelectsRow := by
  constructor
  · intro w
    have row {op : Nat} (hop : op < 16) (hw : w &&& 0xF800000F#32 = BitVec.ofNat 32 op) := decode_of_mask hop hw
    exact ⟨row (by decide), row (by decide), row (by decide), row (by decide), row (by decide), row (by decide),
      row (by decide), fun i => mask_of_decode_ok⟩
  · intro s hs
    apply step_of_forall_decode_ne
    intro i hi
    obtain ⟨h₁, h₇⟩ := mask_of_decode_ok hi
    rcases hs with h | h
    · rw [h] at h₁
      exact absurd h₁ (by decide)
    · omega

/-- Settles O3: the operand comes from a field, so it fits the field; the mask of the row keeps `OP` and that field, which is
what the encoder packs. -/
theorem encodeOfDecode : Obligations.EncodeOfDecode := by
  intro w i h
  rcases decode_ok_cases h with ⟨hop, rfl⟩ | ⟨hop, rfl⟩ | ⟨hop, rfl⟩ | ⟨hop, rfl⟩ | ⟨hop, rfl⟩ | ⟨hop, rfl⟩ | ⟨hop, rfl⟩
  · exact ⟨decide_eq_true (cmdBITS w).isLt, by rw [and_bitsMask, hop, encode]⟩
  · exact ⟨decide_eq_true (cmdBITS w).isLt, by rw [and_bitsMask, hop, encode]⟩
  · exact ⟨decide_eq_true (cmdBITS w).isLt, by rw [and_bitsMask, hop, encode]⟩
  · exact ⟨decide_eq_true (cmdNWORDS w).isLt, by rw [and_nwordsMask, hop, encode]⟩
  · exact ⟨rfl, by rw [and_opMask, hop, encode]⟩
  · exact ⟨decide_eq_true (cmdWLEN w).isLt, by rw [and_wlenMask, hop, encode]⟩
  · exact ⟨decide_eq_true (cmdWLEN w).isLt, by rw [and_wlenMask, hop, encode]⟩

/-- Settles O4: the decoder computes on each of the fixed words. -/
theorem commonCommandWords : Obligations.CommonCommandWords := by
  unfold Obligations.CommonCommandWords
  decide

end Sys2Proof.Machine
end

section
/-! PROOFS. What each operation can answer, what it reads of a request, and what a line of a host program does with the answer
(spec/30_encoding.md R63, R65, R69, R75; spec/60_exceptions.md R221, R230). -/

namespace Sys2Proof.Machine

/-! ## The forms of each operation's response -/

/-- A response that raises what `checkArith` reports, and past the check is a value, has one of ADD's and SUB's forms (R92). -/
theorem forms_of_checkArith {W : Nat} {a b : Value} {r : Response}
    (herr : ∀ kind, checkArith W a b = some kind → r = raise kind 0)
    (hok : checkArith W a b = none → ∃ res resw, r = .ok (.value res resw)) :
    (∃ res resw, r = .ok (.value res resw)) ∨ r = .error .unsupportedBitWidth 0 ∨ r = .error .bitWidthMismatch 0 := by
  rcases checkArith_cases W a b with h | h | h
  · exact .inl (hok h)
  · exact .inr (.inl (herr _ h))
  · exact .inr (.inr (herr _ h))

theorem addResponse_forms (W : Nat) (req : Request) :
    (∃ res resw, addResponse W req = .ok (.value res resw)) ∨ addResponse W req = .error .unsupportedBitWidth 0 ∨
      addResponse W req = .error .bitWidthMismatch 0 :=
  forms_of_checkArith (W := W) (a := req.opa) (b := req.opb) (fun _ h => by simp only [addResponse, h])
    fun h => ⟨_, _, by simp only [addResponse, h]; rfl⟩

theorem subResponse_forms (W : Nat) (req : Request) :
    (∃ res resw, subResponse W req = .ok (.value res resw)) ∨ subResponse W req = .error .unsupportedBitWidth 0 ∨
      subResponse W req = .error .bitWidthMismatch 0 :=
  forms_of_checkArith (W := W) (a := req.opa) (b := req.opb) (fun _ h => by simp only [subResponse, h])
    fun h => ⟨_, _, by simp only [subResponse, h]; rfl⟩

theorem encResponse_forms (cfg : Config) (W : Nat) (req : Request) :
    (∃ nwout wout, encResponse cfg W req = .ok (.slots nwout wout)) ∨
      encResponse cfg W req = .error .unsupportedBitWidth 0 ∨ encResponse cfg W req = .error .bitWidthMismatch 0 := by
  rcases encResponse_cases cfg W req with ⟨-, e⟩ | ⟨-, -, e⟩ | ⟨-, -, e⟩
  · exact .inr (.inl e)
  · exact .inr (.inr e)
  · exact .inl ⟨_, _, e⟩

theorem verifyCodeWord_forms (cfg : Config) (V W : Nat) :
    (∃ res resw, verifyCodeWord cfg V W = .ok (.value res resw)) ∨
      verifyCodeWord cfg V W = .error .invalidChecksum 0 := by
  rw [verifyCodeWord_eq]
  split
  · exact .inl ⟨_, _, rfl⟩
  · exact .inr rfl

/-- DEC's checks in order: the count, the first unknown slot, the checksum (R130, R137). -/
theorem decResponse_forms (cfg : Config) (n : Nat) (req : Request) :
    (∃ res resw, decResponse cfg n req = .ok (.value res resw)) ∨ decResponse cfg n req = .error .invalidWordCount 0 ∨
      (∃ k, k.toNat < 24 ∧ decResponse cfg n req = .error .unknownWord k) ∨
      decResponse cfg n req = .error .invalidChecksum 0 := by
  cases hW : widthOfCount n with
  | none => exact .inr (.inl (by simp only [decResponse, hW]; rfl))
  | some W =>
    have hnW := widthOfCount_eq_some.1 hW
    cases hk : firstUnknown (inputSlots n req) with
    | some k =>
      have e := decResponse_unknown (cfg := cfg) (hnW.imp And.left And.left) hk
      obtain ⟨-, hpos, -⟩ := e ▸ decResponse_safe cfg n req
      exact .inr (.inr (.inl ⟨_, hpos, e⟩))
    | none =>
      rw [decResponse_known hnW hk]
      exact (verifyCodeWord_forms cfg _ W).imp_right fun e => .inr (.inr e)

theorem wstrResponse_forms (cfg : Config) (req : Request) :
    (∃ wlenout chout, wstrResponse cfg req = .ok (.word wlenout chout)) ∨
      wstrResponse cfg req = .error .unknownWord 0 := by
  unfold wstrResponse
  split
  · exact .inr rfl
  · exact .inl ⟨_, _, rfl⟩

theorem lookupResponse_forms (found : Option Index) :
    (∃ slot, lookupResponse found = .ok (.slots 1 [slot])) ∨ lookupResponse found = .error .unknownWord 0 := by
  cases found with
  | some i => exact .inl ⟨_, rfl⟩
  | none => exact .inr rfl

theorem widxResponse_forms (cfg : Config) (L : Nat) (req : Request) :
    (∃ slot, widxResponse cfg L req = .ok (.slots 1 [slot])) ∨ widxResponse cfg L req = .error .unknownWord 0 := by
  rw [widxResponse]
  exact lookupResponse_forms _

theorem suggestResponse_forms (cfg : Config) (L : Nat) (req : Request) :
    ∃ pfxv nwout wout, suggestResponse cfg L req = .ok (.suggestion pfxv nwout wout) := by
  rw [suggestResponse]
  rcases suggestionOf_cases (nearestEntry cfg (inputWord L req)) (prefixEntries cfg (inputWord L req)) with
    ⟨p, -, e⟩ | ⟨-, e⟩
  · exact ⟨_, _, _, e⟩
  · exact ⟨_, _, _, e⟩

/-- Settles O11: `exec` answers the pure response, whose forms are those of its operation. -/
theorem responsesPerOperation : Obligations.ResponsesPerOperation := by
  intro i s
  refine ⟨_, exec_eq_answer i s, ?_⟩
  cases i with
  | add bits => exact addResponse_forms bits s.request
  | sub bits => exact subResponse_forms bits s.request
  | enc bits => exact encResponse_forms _ bits s.request
  | dec nwords => exact decResponse_forms _ nwords s.request
  | wstr => exact wstrResponse_forms _ s.request
  | widx wlen => exact widxResponse_forms _ wlen s.request
  | suggest wlen => exact suggestResponse_forms _ wlen s.request

/-! ## `IllegalCommand` -/

/-- No operation's own response is `IllegalCommand`: it is none of the operation's forms (R230). -/
theorem respond_ne_illegalCommand (cfg : Config) (i : Instr) (req : Request) (info : BitVec 8) :
    respond cfg i req ≠ .error .illegalCommand info := by
  intro h
  cases i with
  | add bits => rcases addResponse_forms bits req with ⟨_, _, e⟩ | e | e <;> cases e.symm.trans h
  | sub bits => rcases subResponse_forms bits req with ⟨_, _, e⟩ | e | e <;> cases e.symm.trans h
  | enc bits => rcases encResponse_forms cfg bits req with ⟨_, _, e⟩ | e | e <;> cases e.symm.trans h
  | dec nwords => rcases decResponse_forms cfg nwords req with ⟨_, _, e⟩ | e | ⟨_, _, e⟩ | e <;> cases e.symm.trans h
  | wstr => rcases wstrResponse_forms cfg req with ⟨_, _, e⟩ | e <;> cases e.symm.trans h
  | widx wlen => rcases widxResponse_forms cfg wlen req with ⟨_, e⟩ | e <;> cases e.symm.trans h
  | suggest wlen =>
    obtain ⟨_, _, _, e⟩ := suggestResponse_forms cfg wlen req
    cases e.symm.trans h

/-- Settles O6: a word with an illegal field does not decode, so it is rejected; a word without one is not rejected, and the
response of the instruction it decodes to is another one. -/
theorem illegalCommandAnswered : Obligations.IllegalCommandAnswered := by
  intro s illegal
  constructor
  · intro hill
    apply step_of_forall_decode_ne
    intro i hi
    obtain ⟨hrsv, hop₁, hop₇⟩ := fields_of_decode_ok hi
    rcases hill with h | h | h
    · exact h hrsv
    · rw [cmdOP, h] at hop₁
      exact absurd hop₁ (by decide)
    · exact absurd (h.trans hop₇) (by decide)
  · intro hlegal info
    cases hd : decode s.request.cmd with
    | ok i =>
      rw [step_of_decode hd, ne_eq, next_answer_inj]
      exact respond_ne_illegalCommand _ i s.request info
    | error r => exact absurd ((fields_of_decode_error hd).imp_right (Or.imp_left BitVec.eq_of_toNat_eq)) hlegal

/-! ## What an operation reads of a request -/

theorem addResponse_congr {W : Nat} {req req' : Request} (ha : req.opa = req'.opa) (hb : req.opb = req'.opb) :
    addResponse W req = addResponse W req' := by
  rw [addResponse, addResponse, ha, hb]

theorem subResponse_congr {W : Nat} {req req' : Request} (ha : req.opa = req'.opa) (hb : req.opb = req'.opb) :
    subResponse W req = subResponse W req' := by
  rw [subResponse, subResponse, ha, hb]

theorem encResponse_congr {cfg : Config} {W : Nat} {req req' : Request} (ha : req.opa = req'.opa) :
    encResponse cfg W req = encResponse cfg W req' := by
  rw [encResponse, encResponse, ha]

theorem toList_take_congr {α : Type} {m n : Nat} {v v' : Vector α m} (h : ∀ k : Fin m, k.val < n → v[k] = v'[k]) :
    v.toList.take n = v'.toList.take n := by
  apply List.ext_getElem
  · simp
  · intro k hk _
    have hkn : k < n ∧ k < m := by simpa using hk
    simpa using h ⟨k, hkn.2⟩ hkn.1

/-- DEC reads its count, and the slots only when the count is one of a mnemonic (R131, R137). -/
theorem decResponse_congr {cfg : Config} {n : Nat} {req req' : Request}
    (h : n = 12 ∨ n = 24 → ∀ k : Fin 24, k.val < n → req.win[k] = req'.win[k]) :
    decResponse cfg n req = decResponse cfg n req' := by
  by_cases hn : n = 12 ∨ n = 24
  · have hslots : inputSlots n req = inputSlots n req' := toList_take_congr (h hn)
    rw [decResponse, decResponse, hslots]
  · rw [not_or] at hn
    rw [decResponse_count hn.1 hn.2, decResponse_count hn.1 hn.2]

theorem wstrResponse_congr {cfg : Config} {req req' : Request} (h : req.win[0] = req'.win[0]) :
    wstrResponse cfg req = wstrResponse cfg req' := by
  rw [wstrResponse, wstrResponse, h]

theorem inputWord_congr {L : Nat} {req req' : Request} (h : ∀ k : Fin 31, k.val < L → req.chin[k] = req'.chin[k]) :
    inputWord L req = inputWord L req' := by
  rw [inputWord, inputWord, Word.mk.injEq]
  exact toList_take_congr h

theorem widxResponse_congr {cfg : Config} {L : Nat} {req req' : Request}
    (h : ∀ k : Fin 31, k.val < L → req.chin[k] = req'.chin[k]) : widxResponse cfg L req = widxResponse cfg L req' := by
  rw [widxResponse, widxResponse, inputWord_congr h]

theorem suggestResponse_congr {cfg : Config} {L : Nat} {req req' : Request}
    (h : ∀ k : Fin 31, k.val < L → req.chin[k] = req'.chin[k]) :
    suggestResponse cfg L req = suggestResponse cfg L req' := by
  rw [suggestResponse, suggestResponse, inputWord_congr h]

/-- Two states whose command words decode to one instruction, which answers both requests alike, get the same response. -/
theorem same_response_of_decode {s s' : State} {i i' : Instr} (h : decode s.request.cmd = .ok i)
    (h' : decode s'.request.cmd = .ok i') (hi : i = i')
    (hr : respond Config.platform i s.request = respond Config.platform i s'.request) :
    ∃ r, step s = .next { s with response := some r } ∧ step s' = .next { s' with response := some r } := by
  subst hi
  exact ⟨_, step_of_decode h, hr ▸ step_of_decode h'⟩

/-- Settles O10: the field of the row makes both words decode to one instruction, whose response reads the row's ports alone. -/
theorem unusedFieldsAndPortsIgnored : Obligations.UnusedFieldsAndPortsIgnored := by
  intro s s' w w' same hmask
  have row {op : Nat} (hop : op < 16) (hw : w &&& 0xF800000F#32 = BitVec.ofNat 32 op) := decode_of_mask hop hw
  have row' {op : Nat} (hop : op < 16) (hw : w &&& 0xF800000F#32 = BitVec.ofNat 32 op) :=
    decode_of_mask hop (hmask.symm.trans hw)
  refine ⟨?_, ?_, ?_, ?_, ?_⟩
  · rintro (hw | hw) hbits ha hb
    · exact same_response_of_decode (row (by decide) hw) (row' (by decide) hw) (congrArg (Instr.add ·.toNat) hbits)
        (addResponse_congr ha hb)
    · exact same_response_of_decode (row (by decide) hw) (row' (by decide) hw) (congrArg (Instr.sub ·.toNat) hbits)
        (subResponse_congr ha hb)
  · intro hw hbits ha
    exact same_response_of_decode (row (by decide) hw) (row' (by decide) hw) (congrArg (Instr.enc ·.toNat) hbits)
      (encResponse_congr ha)
  · intro hw hnwords hwin
    refine same_response_of_decode (row (by decide) hw) (row' (by decide) hw) (congrArg (Instr.dec ·.toNat) hnwords)
      (decResponse_congr fun hn => hwin ?_)
    exact hn.imp BitVec.eq_of_toNat_eq BitVec.eq_of_toNat_eq
  · intro hw hwin
    exact same_response_of_decode (row (by decide) hw) (row' (by decide) hw) rfl (wstrResponse_congr hwin)
  · rintro (hw | hw) hwlen hchin
    · exact same_response_of_decode (row (by decide) hw) (row' (by decide) hw) (congrArg (Instr.widx ·.toNat) hwlen)
        (widxResponse_congr hchin)
    · exact same_response_of_decode (row (by decide) hw) (row' (by decide) hw) (congrArg (Instr.suggest ·.toNat) hwlen)
        (suggestResponse_congr hchin)

/-! ## A line of a host program -/

theorem exists_error_of_status_ne_zero {r : Response} (h : r.status ≠ 0) : ∃ kind info, r = .error kind info := by
  cases r with
  | ok ports => exact absurd rfl h
  | error kind info => exact ⟨kind, info, rfl⟩

@[simp] theorem Line.bindings_error (kind : ErrorKind) (info : BitVec 8) (l : Line) :
    l.bindings (.error kind info) = [] := by
  cases l <;> rfl

theorem runLine_of_request {cfg : Config} {env : Env} {l : Line} {req : Request} (h : l.request env = some req) :
    runLine cfg env l = some (l.bindings (issue cfg req) ++ env, issue cfg req) := by
  simp [runLine, h]

/-- Settles O54: a line issues its request, and an error gives it no binding to put before the variables. -/
theorem errorBindsNoResult : Obligations.ErrorBindsNoResult := by
  intro cfg env l req h
  refine ⟨_, runLine_of_request h, fun hstatus => ?_⟩
  obtain ⟨kind, info, e⟩ := exists_error_of_status_ne_zero hstatus
  rw [e, Line.bindings_error, List.nil_append]

end Sys2Proof.Machine
end

section
/-! PROOFS. The formats M128 and M256 of a mnemonic, bit for bit (spec/30_encoding.md R70 to R73). -/

namespace Sys2Proof.Machine

/-- The code word without its last group is the Secret without the low bits that share that group with the checksum. -/
theorem codeWord_div_group (cfg : Config) (s : Nat) {W : Nat} (h : W = 128 ∨ W = 256) :
    codeWord cfg s W / 2 ^ 11 = s / 2 ^ (11 - W / 32) := by
  have hsplit : 2 ^ 11 = 2 ^ (W / 32) * 2 ^ (11 - W / 32) := by
    rw [← pow_add]
    congr 1
    omega
  rw [hsplit, ← Nat.div_div_eq_div_mul, codeWord_div cfg s W h]

/-- The group of a value that starts at bit k, as a quotient. -/
theorem ofNat_div_two_pow (x : Value) (k : Nat) : BitVec.ofNat 11 (x.toNat / 2 ^ k) = x.extractLsb' k 11 := by
  rw [BitVec.extractLsb', Nat.shiftRight_eq_div_pow]

/-- The groups of a code word: all but the last are bits of the Secret alone (R71 to R73). -/
theorem groups_codeWord (cfg : Config) (x : Value) {W n : Nat} (h : (W = 128 ∧ n = 11) ∨ (W = 256 ∧ n = 23)) :
    groups (codeWord cfg x.toNat W) (n + 1) =
      ((List.range n).map fun i => x.extractLsb' (W - 11 - 11 * i) 11) ++ [BitVec.ofNat 11 (codeWord cfg x.toNat W)] := by
  rw [groups_succ, codeWord_div_group cfg _ (h.imp And.left And.left), groups]
  congr 1
  apply List.map_congr_left
  intro i hi
  have hi := List.mem_range.1 hi
  have hpos : W - 11 - 11 * i = 11 - W / 32 + 11 * (n - 1 - i) := by omega
  rw [groupIndex_eq, Nat.div_div_eq_div_mul, ← pow_add, ofNat_div_two_pow, hpos]

/-- The low k bits of a value over an m-bit number, as the number they make. -/
theorem extractLsb'_append_eq_ofNat (x : Value) (k : Nat) {m : Nat} (c : BitVec m) :
    x.extractLsb' 0 k ++ c = BitVec.ofNat (k + m) (x.toNat * 2 ^ m + c.toNat) := by
  have hlow : (x.toNat * 2 ^ m + c.toNat) % 2 ^ m = c.toNat := by
    rw [Nat.mul_add_mod', Nat.mod_eq_of_lt c.isLt]
  have hhigh : (x.toNat * 2 ^ m + c.toNat) / 2 ^ m = x.toNat := by
    rw [Nat.mul_comm, Nat.mul_add_div (Nat.two_pow_pos m), Nat.div_eq_of_lt c.isLt, Nat.add_zero]
  apply BitVec.eq_of_toNat_eq
  rw [BitVec.toNat_append, ← Nat.shiftLeft_add_eq_or_of_lt c.isLt, Nat.shiftLeft_eq, BitVec.extractLsb'_toNat,
    BitVec.toNat_ofNat, Nat.shiftRight_zero, Nat.add_comm k m, pow_add, Nat.mod_mul, hlow, hhigh]
  ring

/-- The last group of a code word: the low bits of the Secret over the checksum (R70, R113). -/
theorem extractLsb'_append_checksum (cfg : Config) (x : Value) {W k m : Nat} {c : BitVec m} (hm : W / 32 = m)
    (hc : c.toNat = checksum cfg x.toNat W) :
    x.extractLsb' 0 k ++ c = BitVec.ofNat (k + m) (codeWord cfg x.toNat W) := by
  rw [extractLsb'_append_eq_ofNat, hc, codeWord, checksumWidth, hm]

/-- The checksum bits are the upper W/32 bits of byte 0 of the digest (R112). -/
theorem extractLsb'_hashByte0_toNat (cfg : Config) (s : Nat) {W : Nat} (h : W = 128 ∨ W = 256) :
    ((hashByte0 cfg (entBytes s W)).extractLsb' (8 - W / 32) (W / 32)).toNat = checksum cfg s W := by
  rw [BitVec.extractLsb'_toNat]
  exact Nat.mod_eq_of_lt (checksum_lt cfg s W h)

/-- ENC of an in-range Secret slot by slot, for whatever form its last group is given in. -/
theorem exec_enc_layout {s : State} {W n : Nat} {last : Index} (h : (W = 128 ∧ n = 11) ∨ (W = 256 ∧ n = 23))
    (hs : s.request.opa.toNat < 2 ^ W) (hlast : last = BitVec.ofNat 11 (codeWord Config.platform s.request.opa.toNat W)) :
    exec (.enc W) s = .next { s with response := some (.ok (.slots (BitVec.ofNat 8 (n + 1))
      (((List.range n).map fun i => knownSlot (s.request.opa.extractLsb' (W - 11 - 11 * i) 11)) ++ [knownSlot last]))) } := by
  have hcount : wordCount W = n + 1 := by
    rcases h with ⟨rfl, rfl⟩ | ⟨rfl, rfl⟩ <;> rfl
  rw [exec_eq_next_iff, respond, encResponse_ok (h.imp And.left And.left) hs, hcount, groups_codeWord _ _ h, hlast,
    List.map_append, List.map_map]
  rfl

/-- Settles O23: the first eleven groups are bits of the Secret alone, and the last is its low seven bits over the upper four
bits of the digest's byte 0. The bytes that are hashed are `entBytes` by its definition. -/
theorem encLayout128 : Obligations.EncLayout128 := by
  intro s hs x c
  have hc : c.toNat = checksum Config.platform x.toNat 128 :=
    extractLsb'_hashByte0_toNat Config.platform x.toNat (W := 128) (.inl rfl)
  have hlast := extractLsb'_append_checksum (W := 128) (k := 7) Config.platform x rfl hc
  exact exec_enc_layout (.inl ⟨rfl, rfl⟩) hs hlast

/-- Settles O24: the first twenty-three groups are bits of the Secret alone, and the last is its low three bits over the
digest's byte 0, of the same bytes `entBytes`. -/
theorem encLayout256 : Obligations.EncLayout256 := by
  intro s x c
  have hc : c.toNat = checksum Config.platform x.toNat 256 := rfl
  have hlast := extractLsb'_append_checksum (W := 256) (k := 3) Config.platform x rfl hc
  exact exec_enc_layout (.inr ⟨rfl, rfl⟩) x.isLt hlast

end Sys2Proof.Machine
end

section
/-! PROOFS. ADD and SUB: their checks, results and range, the W-bit datapath that computes them, and the laws they inherit from
arithmetic on W-bit vectors (spec/40_arith.md R90 to R94, R97). -/

namespace Sys2Proof.Machine

/-! ## Completion and range -/

theorem addResponse_of_check {W : Nat} {req : Request} {kind : ErrorKind} (h : checkArith W req.opa req.opb = some kind) :
    addResponse W req = .error kind 0 := by
  simp only [addResponse, h]
  rfl

theorem subResponse_of_check {W : Nat} {req : Request} {kind : ErrorKind} (h : checkArith W req.opa req.opb = some kind) :
    subResponse W req = .error kind 0 := by
  simp only [subResponse, h]
  rfl

/-- The least non-negative remainder of a difference on the 256-bit port is SUB's result (R91). -/
theorem ofInt_emod_eq_ofNat_modSub {W a b : Nat} (ha : a < 2 ^ W) (hb : b < 2 ^ W) :
    BitVec.ofInt 256 (((a : Int) - b) % 2 ^ W) = BitVec.ofNat 256 (modSub W a b) := by
  rw [← modSub_eq_int ha hb, BitVec.ofInt_natCast]

/-- Settles O16: the row of `OP` 1 in the decoder, then the width check, the range check and the result, in order. -/
theorem addCompletes : Obligations.AddCompletes := by
  refine ⟨fun w hw => decode_of_mask (op := 1) (by decide) hw, fun s W => ⟨?_, ?_, ?_⟩⟩
  · intro h₁ h₂
    exact exec_eq_next_iff.2 (addResponse_of_check (checkArith_width (not_or.2 ⟨h₁, h₂⟩)))
  · intro hW hab
    exact exec_eq_next_iff.2 (addResponse_of_check (checkArith_range hW hab))
  · intro hW ha hb
    exact exec_eq_next_iff.2 (addResponse_ok hW ha hb)

/-- Settles O17: the row of `OP` 2 in the decoder, then the width check, the range check and the result, in order. -/
theorem subCompletes : Obligations.SubCompletes := by
  refine ⟨fun w hw => decode_of_mask (op := 2) (by decide) hw, fun s W => ⟨?_, ?_, ?_⟩⟩
  · intro h₁ h₂
    exact exec_eq_next_iff.2 (subResponse_of_check (checkArith_width (not_or.2 ⟨h₁, h₂⟩)))
  · intro hW hab
    exact exec_eq_next_iff.2 (subResponse_of_check (checkArith_range hW hab))
  · intro hW ha hb
    rw [ofInt_emod_eq_ofNat_modSub ha hb]
    exact exec_eq_next_iff.2 (subResponse_ok hW ha hb)

/-- Settles O18: an Ok response passed both checks, and its value is reduced modulo 2^W. -/
theorem arithmeticRange : Obligations.ArithmeticRange := by
  rintro s W i res resw (rfl | rfl) h
  · obtain ⟨hW, ha, hb, rfl, hres⟩ := addResponse_eq_value (exec_eq_next_iff.1 h)
    rw [toNat_ofNat_10 hW, hres]
    exact ⟨ha, hb, rfl, modAdd_lt _ _ _⟩
  · obtain ⟨hW, ha, hb, rfl, hres⟩ := subResponse_eq_value (exec_eq_next_iff.1 h)
    rw [toNat_ofNat_10 hW, hres]
    exact ⟨ha, hb, rfl, modSub_lt ha⟩

/-! ## The W-bit datapath

An in-range operand is a W-bit vector zero-extended to the port, and ADD and SUB are addition and subtraction of W-bit
vectors. -/

/-- A value below 2^W is its low W bits, zero-extended. -/
theorem exists_setWidth_eq {W : Nat} {a : Value} (ha : a.toNat < 2 ^ W) : ∃ x : BitVec W, x.setWidth 256 = a := by
  refine ⟨a.setWidth W, BitVec.eq_of_toNat_eq ?_⟩
  rw [BitVec.toNat_setWidth, BitVec.toNat_setWidth, Nat.mod_eq_of_lt ha, Nat.mod_eq_of_lt a.isLt]

section
variable {W : Nat} (h : W = 128 ∨ W = 256) (x y : BitVec W)
include h

theorem toNat_setWidth_256 : (x.setWidth 256).toNat = x.toNat := by
  rw [BitVec.toNat_setWidth, ← BitVec.toNat_ofNat]
  exact toNat_ofNat_256 h x.isLt

theorem setWidth_256_inj : x.setWidth 256 = y.setWidth 256 ↔ x = y := by
  rw [← BitVec.toNat_inj, toNat_setWidth_256 h, toNat_setWidth_256 h, BitVec.toNat_inj]

/-- ADD is the W-bit sum with the carry dropped (R93). -/
theorem addOf_setWidth : addOf W (x.setWidth 256) (y.setWidth 256) = some ((x + y).setWidth 256) := by
  have hx := toNat_setWidth_256 h x
  have hy := toNat_setWidth_256 h y
  have hsum : modAdd W x.toNat y.toNat = (x + y).toNat := (BitVec.toNat_add x y).symm
  rw [addOf_ok h (hx ▸ x.isLt) (hy ▸ y.isLt), hx, hy, hsum, BitVec.ofNat_toNat]

/-- SUB is the W-bit difference with the borrow dropped (R93). -/
theorem subOf_setWidth : subOf W (x.setWidth 256) (y.setWidth 256) = some ((x - y).setWidth 256) := by
  have hx := toNat_setWidth_256 h x
  have hy := toNat_setWidth_256 h y
  have hdiff : modSub W x.toNat y.toNat = (x - y).toNat := by
    rw [modSub_eq x.isLt y.isLt, BitVec.toNat_sub]
    congr 1
    omega
  rw [subOf_ok h (hx ▸ x.isLt) (hy ▸ y.isLt), hx, hy, hdiff, BitVec.ofNat_toNat]

end

/-- Adding the complement and 1 is subtracting: the two's-complement subtractor (R93). -/
theorem add_not_add_one {W : Nat} (x y : BitVec W) : x + ~~~y + 1 = x - y := by
  rw [BitVec.add_assoc, BitVec.sub_eq_add_neg, BitVec.neg_eq_not_add]
  rfl

/-- Settles O19: both operands are zero-extended W-bit vectors, on which ADD and SUB are the vectors' own operations. -/
theorem carryDroppedDatapath : Obligations.CarryDroppedDatapath := by
  intro W a b hW ha hb
  obtain ⟨x, rfl⟩ := exists_setWidth_eq ha
  obtain ⟨y, rfl⟩ := exists_setWidth_eq hb
  rw [toNat_setWidth_256 hW, toNat_setWidth_256 hW, BitVec.ofNat_toNat, BitVec.ofNat_toNat, BitVec.setWidth_eq,
    BitVec.setWidth_eq, add_not_add_one]
  exact ⟨addOf_setWidth hW x y, subOf_setWidth hW x y⟩

/-! ## The laws of R97 -/

/-- Doubling modulo an even number is even (R97, law 9). -/
theorem add_self_toNat_even {W : Nat} (h : W = 128 ∨ W = 256) (x : BitVec W) : (x + x).toNat % 2 = 0 := by
  rw [BitVec.toNat_add]
  rcases h with rfl | rfl
  · omega
  · omega

/-- Doubling forgets the top bit and nothing else (R97, law 9). -/
theorem add_self_eq_add_self_iff {W : Nat} (h : W = 128 ∨ W = 256) (x y : BitVec W) :
    x + x = y + y ↔ y = x ∨ y.toNat = x.toNat + 2 ^ (W - 1) ∨ x.toNat = y.toNat + 2 ^ (W - 1) := by
  have hx := x.isLt
  have hy := y.isLt
  rw [← BitVec.toNat_inj, ← BitVec.toNat_inj, BitVec.toNat_add, BitVec.toNat_add]
  rcases h with rfl | rfl
  · omega
  · omega

/-- Settles O20: on zero-extended W-bit vectors the laws are those of the additive group of the vectors, and doubling is
arithmetic modulo 2^W. -/
theorem arithmeticLaws : Obligations.ArithmeticLaws := by
  refine ⟨?_, subOf_ok (.inl rfl) (by decide) (by decide), subOf_ok (.inr rfl) (by decide) (by decide)⟩
  intro W a b c hW ha hb hc
  obtain ⟨x, rfl⟩ := exists_setWidth_eq ha
  obtain ⟨y, rfl⟩ := exists_setWidth_eq hb
  obtain ⟨z, rfl⟩ := exists_setWidth_eq hc
  have hzero : (0 : Value) = (0 : BitVec W).setWidth 256 := (BitVec.setWidth_zero 256 W).symm
  simp only [hzero, addOf_setWidth hW, subOf_setWidth hW, Option.bind_some, Option.some.injEq, setWidth_256_inj hW,
    toNat_setWidth_256 hW]
  refine ⟨add_comm x y, ⟨_, _, rfl, rfl, ?_⟩, add_zero x, sub_zero x, sub_self x, add_sub_cancel_right x y,
    sub_add_cancel x y, ?_, ?_, sub_sub_cancel x y, ⟨_, rfl, ?_⟩, add_self_eq_add_self_iff hW x y⟩
  · rw [addOf_setWidth hW, addOf_setWidth hW, add_assoc]
  · rw [zero_sub, sub_eq_add_neg]
  · rw [zero_sub, neg_sub]
  · rw [toNat_setWidth_256 hW]
    exact add_self_toNat_even hW x

end Sys2Proof.Machine
end

section
/-! PROOFS. ENC: its encoding, checks and result, and how much of the Secret the entropy part of its slots determines
(spec/41_mnemonic_encoder.md R110 to R118). -/

namespace Sys2Proof.Machine

/-! ## Completion -/

/-- `ent_bytes` with the shifts as quotients (R111). -/
theorem entBytes_eq_map_div (s W : Nat) :
    entBytes s W = (List.range (W / 8)).map fun i => BitVec.ofNat 8 (s / 2 ^ (8 * (W / 8 - 1 - i))) := by
  simp only [entBytes, byteCount, Nat.shiftRight_eq_div_pow]

/-- The checksum with the shift as a quotient (R112). -/
theorem checksum_eq_div (cfg : Config) (s W : Nat) :
    checksum cfg s W = (cfg.hash (entBytes s W)).byte0.toNat / 2 ^ (8 - W / 32) :=
  Nat.shiftRight_eq_div_pow _ _

/-- The groups of a code word with the shifts as quotients (R114). -/
theorem groups_eq_map_div (V n : Nat) :
    groups V n = (List.range n).map fun i => BitVec.ofNat 11 (V / 2 ^ (11 * (n - 1 - i))) :=
  List.map_congr_left fun i _ => groupIndex_eq V n i

/-- ENC checks the width before the range (R116). -/
theorem encResponse_width {cfg : Config} {W : Nat} {req : Request} (h : ¬ (W = 128 ∨ W = 256)) :
    encResponse cfg W req = .error .unsupportedBitWidth 0 := by
  rcases encResponse_cases cfg W req with ⟨-, e⟩ | ⟨hW, -, -⟩ | ⟨hW, -, -⟩
  · exact e
  · exact absurd hW h
  · exact absurd hW h

/-- At a supported width ENC refuses a Secret that does not fit (R116). -/
theorem encResponse_range {cfg : Config} {W : Nat} {req : Request} (h : W = 128 ∨ W = 256) (ha : 2 ^ W ≤ req.opa.toNat) :
    encResponse cfg W req = .error .bitWidthMismatch 0 := by
  rcases encResponse_cases cfg W req with ⟨hW, -⟩ | ⟨-, -, e⟩ | ⟨-, hlt, -⟩
  · exact absurd h hW
  · exact e
  · exact absurd hlt (Nat.not_lt.2 ha)

/-- Settles O22: the row of `OP` 3 in the decoder, then the width check, the range check and the result, in order. The
statement's bytes, checksum and groups are those of the model with quotients for its shifts. -/
theorem encCompletes : Obligations.EncCompletes := by
  refine ⟨fun w hw => decode_of_mask (op := 3) (by decide) hw, fun s W => ⟨?_, ?_, ?_⟩⟩
  · intro h₁ h₂
    exact exec_eq_next_iff.2 (encResponse_width (not_or.2 ⟨h₁, h₂⟩))
  · intro hW ha
    exact exec_eq_next_iff.2 (encResponse_range hW ha)
  · intro hW ha x bytes c V NW
    have hc : checksum Config.platform x W = c := by rw [checksum_eq_div, entBytes_eq_map_div]
    have hV : codeWord Config.platform x W = V := congrArg (x * 2 ^ (W / 32) + ·) hc
    refine ⟨hc ▸ checksum_lt Config.platform x W hW, ?_⟩
    rw [exec_eq_next_iff, respond, encResponse_ok hW ha, hV, groups_eq_map_div, List.map_map]
    rfl

/-! ## Injectivity -/

/-- A number without its low k bits is made of its part above bit 11 and of bits 10 to k. -/
theorem div_two_pow_eq {V V' k : Nat} (hk : k ≤ 11) (hhigh : V / 2 ^ 11 = V' / 2 ^ 11)
    (hlow : V % 2 ^ 11 / 2 ^ k = V' % 2 ^ 11 / 2 ^ k) : V / 2 ^ k = V' / 2 ^ k := by
  have hsplit : 2 ^ 11 = 2 ^ k * 2 ^ (11 - k) := by rw [← pow_add, Nat.add_sub_cancel' hk]
  rw [hsplit, ← Nat.div_div_eq_div_mul, ← Nat.div_div_eq_div_mul] at hhigh
  rw [hsplit, Nat.mod_mul_right_div_self, Nat.mod_mul_right_div_self] at hlow
  rw [← Nat.div_add_mod (V / 2 ^ k) (2 ^ (11 - k)), hhigh, hlow, Nat.div_add_mod]

/-- The high bits of a slot, as a quotient of its index. -/
theorem knownSlot_ushiftRight_toNat (V k : Nat) : (knownSlot (BitVec.ofNat 11 V) >>> k).toNat = V % 2 ^ 11 / 2 ^ k := by
  rw [BitVec.toNat_ushiftRight, Nat.shiftRight_eq_div_pow, knownSlot, BitVec.toNat_setWidth_of_le (by decide),
    BitVec.toNat_ofNat]

/-- The groups of a number determine it: joining is their inverse (R71). -/
theorem groups_injective {V V' n : Nat} (hV : V < 2 ^ (11 * n)) (hV' : V' < 2 ^ (11 * n)) (h : groups V n = groups V' n) :
    V = V' := by
  rw [← joinGroups_groups hV, h, joinGroups_groups hV']

/-- The slots of a code word without the low k bits of the last one determine the code word without its low k bits. -/
theorem codeWord_div_of_slots {V V' n k : Nat} (hk : k ≤ 11) (hV : V < 2 ^ (11 * (n + 1))) (hV' : V' < 2 ^ (11 * (n + 1)))
    (hinit : ((groups V (n + 1)).map knownSlot).dropLast = ((groups V' (n + 1)).map knownSlot).dropLast)
    (hlast : (((groups V (n + 1)).map knownSlot).getLast?.map fun x : Slot => x >>> k) =
      (((groups V' (n + 1)).map knownSlot).getLast?.map fun x : Slot => x >>> k)) :
    V / 2 ^ k = V' / 2 ^ k := by
  simp only [groups_succ, List.map_append, List.map_cons, List.map_nil, List.dropLast_concat, List.getLast?_concat,
    Option.map_some, Option.some.injEq] at hinit hlast
  have hinj : Function.Injective knownSlot := fun _ _ => knownSlot_injective
  have hdiv {U : Nat} (hU : U < 2 ^ (11 * (n + 1))) : U / 2 ^ 11 < 2 ^ (11 * n) := by
    apply Nat.div_lt_of_lt_mul
    rwa [← pow_add, Nat.add_comm]
  have hhigh := groups_injective (hdiv hV) (hdiv hV') (List.map_injective_iff.2 hinj hinit)
  have hlow := congrArg BitVec.toNat hlast
  rw [knownSlot_ushiftRight_toNat, knownSlot_ushiftRight_toNat] at hlow
  exact div_two_pow_eq hk hhigh hlow

/-- Settles O25: the slots above the checksum bits determine the code word above them, which is the Secret. -/
theorem encInjective : Obligations.EncInjective := by
  intro s s' W n n' m m' h h' hinit hlast
  obtain ⟨hW, hs, -, rfl⟩ := encResponse_eq_slots (exec_eq_next_iff.1 h)
  obtain ⟨-, hs', -, rfl⟩ := encResponse_eq_slots (exec_eq_next_iff.1 h')
  have hV := codeWord_lt Config.platform s.request.opa.toNat W hW hs
  have hV' := codeWord_lt Config.platform s'.request.opa.toNat W hW hs'
  obtain ⟨k, hcount⟩ : ∃ k, wordCount W = k + 1 := by
    rcases hW with rfl | rfl
    · exact ⟨11, rfl⟩
    · exact ⟨23, rfl⟩
  rw [hcount] at hV hV' hinit hlast
  have hdiv := codeWord_div_of_slots (k := W / 32) (by omega) hV hV' hinit hlast
  rw [codeWord_div _ _ _ hW, codeWord_div _ _ _ hW] at hdiv
  exact BitVec.eq_of_toNat_eq hdiv

end Sys2Proof.Machine
end

section
/-! PROOFS. DEC: its count, its two checks and its result, the round trips with ENC, and changes of the checksum bits
(spec/42_mnemonic_decoder.md R131 to R140). -/

namespace Sys2Proof.Machine

/-! ## The count -/

/-- Settles O27: the row of `OP` 4 in the decoder, the check of the count, the widths of an Ok response, and the forms of DEC's
responses, none of which is `UnsupportedBitWidth`. -/
theorem decCountGivesWidth : Obligations.DecCountGivesWidth := by
  refine ⟨fun w hw => decode_of_mask (op := 4) (by decide) hw, fun s n => ⟨?_, ?_, ?_⟩⟩
  · intro h₁ h₂
    exact exec_eq_next_iff.2 (decResponse_count h₁ h₂)
  · intro res resw h
    obtain ⟨W, hnW, -, rfl, -, -⟩ := decResponse_eq_value (exec_eq_next_iff.1 h)
    rcases hnW with ⟨rfl, rfl⟩ | ⟨rfl, rfl⟩
    · exact .inl ⟨rfl, rfl⟩
    · exact .inr ⟨rfl, rfl⟩
  · intro info h
    have h := exec_eq_next_iff.1 h
    rcases decResponse_forms Config.platform n s.request with ⟨_, _, e⟩ | e | ⟨_, _, e⟩ | e <;> cases e.symm.trans h

/-! ## Unknown slots -/

theorem inputSlots_getElem {n j : Nat} {req : Request} (h : j < (inputSlots n req).length) (hj : j < 24) :
    (inputSlots n req)[j] = req.win[j] := by
  simp [inputSlots]

/-- Every input slot is known when `WIN` holds known slots below the count (R132). -/
theorem firstUnknown_inputSlots_eq_none {n : Nat} {req : Request}
    (h : ∀ j : Fin 24, j.val < n → slotUnk req.win[j] = false) : firstUnknown (inputSlots n req) = none := by
  rw [firstUnknown_eq_none]
  intro slot hslot
  obtain ⟨j, hj, rfl⟩ := List.mem_iff_getElem.1 hslot
  have hj' : j < n ∧ j < 24 := by simpa [inputSlots] using hj
  rw [inputSlots_getElem hj hj'.2]
  exact h ⟨j, hj'.2⟩ hj'.1

/-- The first unknown slot of `WIN` is the first unknown input slot when it is below the count (R132). -/
theorem firstUnknown_inputSlots_eq_some {n : Nat} {req : Request} {k : Fin 24} (hkn : k.val < n)
    (hk : slotUnk req.win[k] = true) (hbefore : ∀ j : Fin 24, j < k → slotUnk req.win[j] = false) :
    firstUnknown (inputSlots n req) = some k.val := by
  have hlen : k.val < (inputSlots n req).length := by simp [inputSlots, hkn]
  rw [firstUnknown, List.findIdx?_eq_some_iff_getElem]
  refine ⟨hlen, ?_, fun j hjk => ?_⟩
  · rwa [inputSlots_getElem hlen k.isLt]
  · rw [inputSlots_getElem (hjk.trans hlen) (hjk.trans k.isLt), Bool.not_eq_true]
    exact hbefore ⟨j, hjk.trans k.isLt⟩ hjk

/-- Settles O28: the slot at k is the first unknown one among the input slots, and DEC reports it without a checksum. -/
theorem decReportsFirstUnknown : Obligations.DecReportsFirstUnknown := by
  intro s n k hn hkn hk hbefore
  exact exec_eq_next_iff.2 (decResponse_unknown hn (firstUnknown_inputSlots_eq_some hkn hk hbefore))

/-! ## The checksum -/

/-- The entropy part of the code word of the input slots is a number of W bits (R134). -/
theorem inputSlots_entropy_lt {n W : Nat} {req : Request} (h : (n = 12 ∧ W = 128) ∨ (n = 24 ∧ W = 256)) :
    joinGroups ((inputSlots n req).map slotIdx) / 2 ^ (W / 32) < 2 ^ W := by
  apply joinGroups_div_lt
  rwa [List.length_map, inputSlots_length (h.imp And.left And.left)]

/-- DEC of known slots whose checksum is that of their entropy (R136). -/
theorem decResponse_checksum {cfg : Config} {n W : Nat} {req : Request} (h : (n = 12 ∧ W = 128) ∨ (n = 24 ∧ W = 256))
    (hk : firstUnknown (inputSlots n req) = none)
    (hc : joinGroups ((inputSlots n req).map slotIdx) % 2 ^ (W / 32) =
      checksum cfg (joinGroups ((inputSlots n req).map slotIdx) / 2 ^ (W / 32)) W) :
    decResponse cfg n req = valueResponse (joinGroups ((inputSlots n req).map slotIdx) / 2 ^ (W / 32)) W := by
  rw [decResponse_known h hk, verifyCodeWord_eq, if_pos hc]

/-- DEC of known slots whose checksum is not that of their entropy (R135). -/
theorem decResponse_checksum_ne {cfg : Config} {n W : Nat} {req : Request} (h : (n = 12 ∧ W = 128) ∨ (n = 24 ∧ W = 256))
    (hk : firstUnknown (inputSlots n req) = none)
    (hc : joinGroups ((inputSlots n req).map slotIdx) % 2 ^ (W / 32) ≠
      checksum cfg (joinGroups ((inputSlots n req).map slotIdx) / 2 ^ (W / 32)) W) :
    decResponse cfg n req = .error .invalidChecksum 0 := by
  rw [decResponse_known h hk, verifyCodeWord_eq, if_neg hc]
  rfl

/-- Settles O29: the statement's sum is the joined code word of the input slots, on which DEC compares the checksums. -/
theorem decVerifiesChecksum : Obligations.DecVerifiesChecksum := by
  intro s n W hnW hknown V x c
  have hV : joinGroups ((inputSlots n s.request).map slotIdx) = V :=
    joinGroups_inputSlots (hnW.imp And.left And.left) s.request
  have hk := firstUnknown_inputSlots_eq_none hknown
  have hx : x < 2 ^ W := by
    have hlt := inputSlots_entropy_lt (req := s.request) hnW
    rwa [hV] at hlt
  refine ⟨hx, fun hc => ?_, fun hc => ?_⟩
  · rw [exec_eq_next_iff, respond, decResponse_checksum hnW hk (by rwa [hV]), hV]
    rfl
  · rw [exec_eq_next_iff, respond, decResponse_checksum_ne hnW hk (by rwa [hV])]

/-! ## The round trips with ENC -/

theorem wordCount_eq {n W : Nat} (h : (n = 12 ∧ W = 128) ∨ (n = 24 ∧ W = 256)) : wordCount W = n := by
  rcases h with ⟨rfl, rfl⟩ | ⟨rfl, rfl⟩ <;> rfl

theorem exists_count_of_width {W : Nat} (h : W = 128 ∨ W = 256) : ∃ n, (n = 12 ∧ W = 128) ∨ (n = 24 ∧ W = 256) :=
  h.elim (fun hW => ⟨12, .inl ⟨rfl, hW⟩⟩) (fun hW => ⟨24, .inr ⟨rfl, hW⟩⟩)

/-- The verification accepts the code word of every Secret (R134 to R136). -/
theorem verifyCodeWord_codeWord (cfg : Config) (s : Nat) {W : Nat} (h : W = 128 ∨ W = 256) :
    verifyCodeWord cfg (codeWord cfg s W) W = valueResponse s W := by
  rw [verifyCodeWord_eq, codeWord_div cfg s W h, codeWord_mod cfg s W h, if_pos rfl]

/-- DEC of the slots that ENC cuts a code word into answers the Secret (R138). -/
theorem decResponse_codeWord {cfg : Config} {s n W : Nat} {req : Request} (h : (n = 12 ∧ W = 128) ∨ (n = 24 ∧ W = 256))
    (hs : s < 2 ^ W) (hreq : inputSlots n req = (groups (codeWord cfg s W) n).map knownSlot) :
    decResponse cfg n req = valueResponse s W := by
  have hW := h.imp And.right And.right
  have hk : firstUnknown (inputSlots n req) = none := by
    rw [hreq, firstUnknown_eq_none]
    exact map_knownSlot_known _
  have hidx : (inputSlots n req).map slotIdx = groups (codeWord cfg s W) n := by
    rw [hreq, List.map_map]
    exact List.map_id'' slotIdx_knownSlot _
  have hlt : codeWord cfg s W < 2 ^ (11 * n) := wordCount_eq h ▸ codeWord_lt cfg s W hW hs
  rw [decResponse_known h hk, hidx, joinGroups_groups hlt, verifyCodeWord_codeWord cfg s hW]

/-- Settles O30: the slots of ENC are known, join to the code word of the Secret, and that code word passes the check. -/
theorem decOfEnc : Obligations.DecOfEnc := by
  intro s t W nwout m h hm
  obtain ⟨hW, hs, -, hslots⟩ := encResponse_eq_slots (exec_eq_next_iff.1 h)
  obtain ⟨n, hnW⟩ := exists_count_of_width hW
  rw [wordCount_eq hnW] at hslots
  have hlen : m.length = n := by rw [hslots, List.length_map, groups_length]
  rw [hlen] at hm ⊢
  rw [exec_eq_next_iff, respond, decResponse_codeWord hnW hs (hm.trans hslots), valueResponse, BitVec.ofNat_toNat,
    BitVec.setWidth_eq]

/-- Settles O31: an accepted sequence joins to the code word of the answered Secret, so cutting that code word gives the slots
back. -/
theorem encOfDec : Obligations.EncOfDec := by
  intro s t n resw h
  obtain ⟨W, hnW, hk, rfl, hres, hV⟩ := decResponse_eq_value (exec_eq_next_iff.1 h)
  have hW := hnW.imp And.right And.right
  have hs : s.request.opa.toNat < 2 ^ W := hres ▸ inputSlots_entropy_lt hnW
  have hlen : ((inputSlots n t.request).map slotIdx).length = n := by
    rw [List.length_map, inputSlots_length (hnW.imp And.left And.left)]
  have hgroups : groups (codeWord Config.platform s.request.opa.toNat W) n = (inputSlots n t.request).map slotIdx := by
    have hcut := groups_joinGroups ((inputSlots n t.request).map slotIdx)
    rwa [hlen, hV] at hcut
  rw [toNat_ofNat_10 hW, exec_eq_next_iff, respond, encResponse_ok hW hs, wordCount_eq hnW, hgroups,
    map_knownSlot_map_slotIdx hk]
  rfl

/-! ## Changes of the checksum bits -/

theorem slotIdx_xor (x y : Slot) : slotIdx (x ^^^ y) = slotIdx x ^^^ slotIdx y := BitVec.extractLsb'_xor

theorem slotUnk_xor (x y : Slot) : slotUnk (x ^^^ y) = (slotUnk x ^^ slotUnk y) := BitVec.getLsbD_xor

theorem slotUnk_eq_false_of_lt {x : Slot} (h : x.toNat < 2 ^ 11) : slotUnk x = false := by
  rw [slotUnk, BitVec.getLsbD, Nat.testBit_lt_two_pow h]

theorem slotIdx_toNat_of_lt {x : Slot} (h : x.toNat < 2 ^ 11) : (slotIdx x).toNat = x.toNat := by
  rw [slotIdx, BitVec.extractLsb'_toNat, Nat.shiftRight_zero, Nat.mod_eq_of_lt h]

/-- The input slots of m + 1, the last one apart. -/
theorem inputSlots_succ {m : Nat} (hm : m < 24) (req : Request) :
    inputSlots (m + 1) req = inputSlots m req ++ [req.win[m]] := by
  have hlen : m < req.win.toList.length := by simpa using hm
  rw [inputSlots, List.take_succ_eq_append_getElem hlen, inputSlots, Vector.getElem_toList]

/-- A non-zero change of the low k bits of the last group leaves the code word above bit k and changes its low k bits. -/
theorem joinGroups_xor_last {l : List Index} {i flip : Index} {k : Nat} (hk : k ≤ 11) (hflip : flip.toNat < 2 ^ k)
    (hne : flip ≠ 0) :
    joinGroups (l ++ [i ^^^ flip]) / 2 ^ k = joinGroups (l ++ [i]) / 2 ^ k ∧
      joinGroups (l ++ [i ^^^ flip]) % 2 ^ k ≠ joinGroups (l ++ [i]) % 2 ^ k := by
  have hi := i.isLt
  have hx := (i ^^^ flip).isLt
  have hhigh : (i ^^^ flip).toNat / 2 ^ k = i.toNat / 2 ^ k := by
    rw [BitVec.toNat_xor, Nat.xor_div_two_pow, Nat.div_eq_of_lt hflip, Nat.xor_zero]
  rw [joinGroups_append, joinGroups_append]
  have hdiv : (joinGroups l * 2 ^ 11 + (i ^^^ flip).toNat) / 2 ^ k = (joinGroups l * 2 ^ 11 + i.toNat) / 2 ^ k := by
    apply div_two_pow_eq hk
    · omega
    · rwa [Nat.mul_add_mod', Nat.mul_add_mod', Nat.mod_eq_of_lt hx, Nat.mod_eq_of_lt hi]
  refine ⟨hdiv, fun hmod => hne ?_⟩
  have hsame : joinGroups l * 2 ^ 11 + (i ^^^ flip).toNat = joinGroups l * 2 ^ 11 + i.toNat := by
    rw [← Nat.div_add_mod (_ + (i ^^^ flip).toNat) (2 ^ k), hdiv, hmod, Nat.div_add_mod]
  have hxor : i ^^^ flip = i := BitVec.eq_of_toNat_eq (Nat.add_left_cancel hsame)
  exact (BitVec.xor_right_inj i).1 (hxor.trans BitVec.xor_zero.symm)

/-- The same change of the last slot, which has `unk` = 0 in the change (R140). -/
theorem joinGroups_slotIdx_xor_last (l : List Slot) (a : Slot) {flip : Slot} {k : Nat} (hk : k ≤ 11)
    (hflip : flip.toNat < 2 ^ k) (hne : flip ≠ 0) :
    joinGroups ((l ++ [a ^^^ flip]).map slotIdx) / 2 ^ k = joinGroups ((l ++ [a]).map slotIdx) / 2 ^ k ∧
      joinGroups ((l ++ [a ^^^ flip]).map slotIdx) % 2 ^ k ≠ joinGroups ((l ++ [a]).map slotIdx) % 2 ^ k := by
  have hidx := slotIdx_toNat_of_lt (hflip.trans_le (Nat.pow_le_pow_right (by decide) hk))
  have hne' : slotIdx flip ≠ 0 := by
    intro h
    rw [h] at hidx
    exact hne (BitVec.eq_of_toNat_eq hidx.symm)
  simp only [List.map_append, List.map_singleton, slotIdx_xor]
  exact joinGroups_xor_last hk (hidx ▸ hflip) hne'

/-- A change of the index bits of the last slot leaves the slots known. -/
theorem firstUnknown_xor_last {l : List Slot} {a flip : Slot} (hflip : slotUnk flip = false)
    (h : firstUnknown (l ++ [a]) = none) : firstUnknown (l ++ [a ^^^ flip]) = none := by
  simp only [firstUnknown_eq_none, List.forall_mem_append, List.forall_mem_singleton] at h ⊢
  rwa [slotUnk_xor, hflip, Bool.xor_false]

/-- Settles O32: the change leaves the slots known and the entropy as it was, and the checksum is no longer the accepted one. -/
theorem checksumChangeIsCaught : Obligations.ChecksumChangeIsCaught := by
  intro s t n res resw flip h hlow hlast hne hflip
  obtain ⟨W, hnW, hk, rfl, -, hV⟩ := decResponse_eq_value (exec_eq_next_iff.1 h)
  have hW := hnW.imp And.right And.right
  have hbits : W / 32 ≤ 11 := by omega
  rw [toNat_ofNat_10 hW] at hflip
  obtain ⟨m, rfl, hm⟩ : ∃ m, n = m + 1 ∧ m < 24 := ⟨n - 1, by omega, by omega⟩
  have hs := inputSlots_succ hm s.request
  have ht : inputSlots (m + 1) t.request = inputSlots m s.request ++ [s.request.win[m] ^^^ flip] := by
    have hinit : inputSlots m t.request = inputSlots m s.request :=
      toList_take_congr fun k hkm => hlow k (Nat.succ_lt_succ hkm)
    rw [inputSlots_succ hm, hinit]
    exact congrArg (inputSlots m s.request ++ [·]) (hlast ⟨m, hm⟩ rfl)
  have hk' : firstUnknown (inputSlots (m + 1) t.request) = none := by
    rw [hs] at hk
    rw [ht]
    exact firstUnknown_xor_last (slotUnk_eq_false_of_lt (hflip.trans_le (Nat.pow_le_pow_right (by decide) hbits))) hk
  obtain ⟨hdiv, hmod⟩ := joinGroups_slotIdx_xor_last (inputSlots m s.request) s.request.win[m] hbits hflip hne
  rw [← hs, ← ht, hV, codeWord_div _ _ _ hW] at hdiv
  rw [← hs, ← ht, hV, codeWord_mod _ _ _ hW] at hmod
  exact exec_eq_next_iff.2 (decResponse_checksum_ne hnW hk' (by rwa [hdiv]))

end Sys2Proof.Machine
end

section
/-! PROOFS. The Wordlist lookups WSTR and WIDX, and the word-level codec over them: ENCODE and DECODE
(spec/43_wordlist.md R151 to R156). -/

namespace Sys2Proof.Machine

/-! ## WSTR -/

theorem wstrResponse_of_unk {cfg : Config} {req : Request} (h : slotUnk req.win[0] = true) :
    wstrResponse cfg req = .error .unknownWord 0 :=
  if_pos h

/-- A slot with `unk` = 0 is the known slot of its index, whose entry WSTR answers (R151). -/
theorem wstrResponse_of_not_unk {cfg : Config} {req : Request} (h : slotUnk req.win[0] = false) :
    wstrResponse cfg req = .ok (.word (BitVec.ofNat 5 (cfg.wordlist (slotIdx req.win[0])).symbols.length)
      (cfg.wordlist (slotIdx req.win[0])).symbols) :=
  wstrResponse_known (knownSlot_slotIdx h).symm

/-- Settles O33: the row of `OP` 5 in the decoder, and WSTR on the two values of `unk`. -/
theorem wstrReadsWordlist : Obligations.WstrReadsWordlist :=
  ⟨fun _ hw => decode_of_mask (op := 5) (by decide) hw,
    fun _ => ⟨fun h => exec_eq_next_iff.2 (wstrResponse_of_unk h), fun h => exec_eq_next_iff.2 (wstrResponse_of_not_unk h)⟩⟩

/-! ## WIDX -/

/-- WIDX of an entry answers its index, the only one of that Word (R150, R152). -/
theorem widxResponse_entry {cfg : Config} {L : Nat} {req : Request} {i : Index} (h : cfg.wordlist i = inputWord L req) :
    widxResponse cfg L req = .ok (.slots 1 [knownSlot i]) := by
  rw [widxResponse, lookupWord_eq_some.2 h, lookupResponse]

theorem widxResponse_absent {cfg : Config} {L : Nat} {req : Request} (h : ∀ i, cfg.wordlist i ≠ inputWord L req) :
    widxResponse cfg L req = .error .unknownWord 0 := by
  rw [widxResponse, lookupWord_eq_none.2 h]
  rfl

/-- Settles O34: the row of `OP` 6 in the decoder, and WIDX of an entry and of a Word that is none. -/
theorem widxFindsWord : Obligations.WidxFindsWord := by
  refine ⟨fun w hw => decode_of_mask (op := 6) (by decide) hw, fun s L => ⟨fun i hi => ?_, fun hne => ?_⟩⟩
  · exact exec_eq_next_iff.2 (widxResponse_entry (wordlist_eq_inputWord.2 hi))
  · exact exec_eq_next_iff.2 (widxResponse_absent fun i hi => hne i (wordlist_eq_inputWord.1 hi))

/-- WIDX of a host finds an index exactly when its entry is the Word (R152). -/
theorem issueWidx_eq_knownSlot_iff {cfg : Config} {w : Word} {i : Index} :
    issueWidx cfg w = .ok (knownSlot i) ↔ cfg.wordlist i = w := by
  constructor
  · intro h
    by_cases hw : ∃ j, cfg.wordlist j = w
    · obtain ⟨j, rfl⟩ := hw
      rw [issueWidx_entry, Except.ok.injEq] at h
      rw [knownSlot_injective h]
    · rw [issueWidx_absent (not_exists.1 hw)] at h
      cases h
  · rintro rfl
    exact issueWidx_entry cfg i

/-- Settles O35: WSTR of slot i answers entry i, and WIDX answers slot i for that Word and no other. -/
theorem lookupsAreInverse : Obligations.LookupsAreInverse := by
  intro cfg i
  refine ⟨⟨_, issueWstr_known cfg i, issueWidx_entry cfg i⟩, fun w h => ?_⟩
  rw [← issueWidx_eq_knownSlot_iff.1 h]
  exact issueWstr_known cfg i

/-! ## DECODE -/

theorem slotOfWord_entry (cfg : Config) (i : Index) : slotOfWord cfg (cfg.wordlist i) = knownSlot i := by
  simp only [slotOfWord, issueWidx_entry]

theorem slotOfWord_absent {cfg : Config} {w : Word} (h : ∀ i, cfg.wordlist i ≠ w) : slotOfWord cfg w = unknownSlot := by
  simp only [slotOfWord, issueWidx_absent h]

theorem decodeWords_count {cfg : Config} {words : List Word} (h₁ : words.length ≠ 12) (h₂ : words.length ≠ 24) :
    decodeWords cfg words = .error ⟨.invalidWordCount, 0⟩ :=
  if_pos ⟨h₁, h₂⟩

theorem decodeWords_of_count {cfg : Config} {words : List Word} (h : words.length = 12 ∨ words.length = 24) :
    decodeWords cfg words = issueDec cfg (words.map (slotOfWord cfg)) :=
  if_neg (by omega)

/-- DECODE of entries is DEC of their indices (R155). -/
theorem decodeWords_map_wordlist (cfg : Config) {idxs : List Index} (h : idxs.length = 12 ∨ idxs.length = 24) :
    decodeWords cfg (idxs.map cfg.wordlist) = issueDec cfg (idxs.map knownSlot) := by
  rw [decodeWords_of_count (by rwa [List.length_map]), List.map_map]
  exact congrArg (issueDec cfg) (List.map_congr_left fun i _ => slotOfWord_entry cfg i)

/-- DEC of a host on a list whose first unknown slot is at position k (R132). -/
theorem issueDec_unknown (cfg : Config) {slots : List Slot} {k : Nat} (hlen : slots.length = 12 ∨ slots.length = 24)
    (hk : firstUnknown slots = some k) : issueDec cfg slots = .error ⟨.unknownWord, BitVec.ofNat 8 k⟩ := by
  have hle : slots.length ≤ 24 := by omega
  rw [issueDec_eq cfg hle, decResponse_unknown hlen (by rwa [inputSlots_slotRequest _ hle]), Response.toTagged]

/-- The first word that is no entry gives the first unknown slot (R155). -/
theorem firstUnknown_map_slotOfWord {cfg : Config} {words : List Word} {k : Nat} {w : Word} (hw : words[k]? = some w)
    (habsent : ∀ i, cfg.wordlist i ≠ w)
    (hbefore : ∀ (j : Nat) (v : Word), j < k → words[j]? = some v → ∃ i, cfg.wordlist i = v) :
    firstUnknown (words.map (slotOfWord cfg)) = some k := by
  obtain ⟨hk, rfl⟩ := List.getElem?_eq_some_iff.1 hw
  rw [firstUnknown, List.findIdx?_eq_some_iff_getElem]
  refine ⟨by rwa [List.length_map], ?_, fun j hj => ?_⟩
  · rw [List.getElem_map, slotOfWord_absent habsent, slotUnk_unknownSlot]
  · obtain ⟨i, hi⟩ := hbefore j _ hj (List.getElem?_eq_getElem (hj.trans hk))
    rw [List.getElem_map, ← hi, slotOfWord_entry, slotUnk_knownSlot]
    exact Bool.false_ne_true

/-- The host names the word at the position that `INFO` gives (R224). -/
theorem offendingWord_unknownWord (words : List Word) {k : Nat} (hk : k < 256) :
    offendingWord words ⟨.unknownWord, BitVec.ofNat 8 k⟩ = words[k]? := by
  rw [offendingWord, if_pos rfl, BitVec.toNat_ofNat, Nat.mod_eq_of_lt hk]

/-- Settles O44: the count is checked before any lookup; the first absent word gives the first unknown slot, which DEC reports
by its position; and entries give the known slots of their indices. -/
theorem decodeWordsCases : Obligations.DecodeWordsCases := by
  intro cfg words
  refine ⟨decodeWords_count, fun hlen => ⟨fun k w hw habsent hbefore => ⟨?_, ?_⟩, ?_⟩⟩
  · rw [decodeWords_of_count hlen]
    exact issueDec_unknown cfg (by rwa [List.length_map]) (firstUnknown_map_slotOfWord hw habsent hbefore)
  · have hk := (List.getElem?_eq_some_iff.1 hw).1
    rw [offendingWord_unknownWord words (by omega), hw]
  · rintro idxs rfl
    exact decodeWords_map_wordlist cfg (by rwa [List.length_map] at hlen)

/-! ## ENCODE, and the round trip -/

/-- WSTR on each of a list of known slots gives their entries, in order (R154). -/
theorem mapM_issueWstr_knownSlot (cfg : Config) (idxs : List Index) :
    (idxs.map knownSlot).mapM (issueWstr cfg) = .ok (idxs.map cfg.wordlist) := by
  induction idxs with
  | nil => rfl
  | cons i idxs ih =>
    rw [List.map_cons, List.mapM_cons, issueWstr_known, ih]
    rfl

/-- ENCODE of an in-range Secret gives the entries at the groups of its code word (R154). -/
theorem encodeWords_ok (cfg : Config) {W : BitVec 10} {s : Value} (h : W = 128 ∨ W = 256) (hs : s.toNat < 2 ^ W.toNat) :
    encodeWords cfg W s =
      .ok ((groups (codeWord cfg s.toNat W.toNat) (wordCount W.toNat)).map cfg.wordlist) := by
  rw [encodeWords, issueEnc_ok cfg h hs]
  exact mapM_issueWstr_knownSlot cfg _

/-- DEC of a host on the slots that a code word is cut into answers the width and the Secret (R138). -/
theorem issueDec_codeWord (cfg : Config) {W : BitVec 10} {s : Value} (h : W = 128 ∨ W = 256) (hs : s.toNat < 2 ^ W.toNat) :
    issueDec cfg ((groups (codeWord cfg s.toNat W.toNat) (wordCount W.toNat)).map knownSlot) = .ok ⟨W, s⟩ := by
  obtain ⟨n, hnW⟩ := exists_count_of_width (supported_toNat h)
  rw [wordCount_eq hnW]
  generalize hm : (groups (codeWord cfg s.toNat W.toNat) n).map knownSlot = m
  have hlen : m.length = n := by rw [← hm, List.length_map, groups_length]
  have hle : m.length ≤ 24 := by omega
  rw [issueDec_eq cfg hle, decResponse_codeWord (by rwa [hlen]) hs (by rw [inputSlots_slotRequest _ hle, hlen, hm])]
  simp [valueResponse, Response.toTagged]

/-- Settles O43: ENCODE gives the entries at the groups of the code word, DECODE gives DEC the known slots of those groups, and
DEC answers the Secret. -/
theorem decodeWordsOfEncodeWords : Obligations.DecodeWordsOfEncodeWords := by
  intro cfg W s hW hs
  refine ⟨_, encodeWords_ok cfg hW hs, ?_, ?_⟩
  · rw [List.length_map, groups_length, wordCount, checksumWidth]
  · have hcount : wordCount W.toNat = 12 ∨ wordCount W.toNat = 24 := by
      rcases hW with rfl | rfl
      · exact .inl rfl
      · exact .inr rfl
    rw [decodeWords_map_wordlist cfg (by rwa [groups_length]), issueDec_codeWord cfg hW hs]

end Sys2Proof.Machine
end

section
/-! PROOFS. The secret splitter/joiner: SPLIT and the joins on integers modulo 2^W, the distribution of one share, and the JOIN
dispatcher (spec/44_split_join.md R170 to R179; spec/90_conflicts.md C1). -/

namespace Sys2Proof.Machine

/-! ## Integers modulo 2^W on a port

An in-range operand is the residue of an integer. ADD and SUB add and subtract those integers, so a sequence of them answers the
residue of one integer expression. -/

/-- The least non-negative remainder of an integer modulo 2^W, on the 256-bit port (R171, R179). -/
def residue (W : Nat) (z : Int) : Value := BitVec.ofInt 256 (z % 2 ^ W)

section
variable {W : Nat} (h : W = 128 ∨ W = 256)
include h

theorem residue_toNat (z : Int) : ((residue W z).toNat : Int) = z % 2 ^ W := by
  have hpos : (0 : Int) < 2 ^ W := by positivity
  have hlt := Int.emod_lt_of_pos z hpos
  have hle : (2 : Int) ^ W ≤ 2 ^ 256 := pow_le_pow_right₀ (by decide) (by omega)
  rw [residue, BitVec.toNat_ofInt]
  push_cast
  omega

theorem residue_lt (z : Int) : (residue W z).toNat < 2 ^ W := by
  have hlt := Int.emod_lt_of_pos z (show (0 : Int) < 2 ^ W by positivity)
  rw [← residue_toNat h] at hlt
  exact_mod_cast hlt

theorem eq_residue_iff {v : Value} {z : Int} : v = residue W z ↔ (v.toNat : Int) = z % 2 ^ W := by
  rw [← BitVec.toNat_inj, ← residue_toNat h, Int.natCast_inj]

/-- A value below 2^W is the residue of itself as a number. -/
theorem residue_of_lt {v : Value} (hv : v.toNat < 2 ^ W) : residue W v.toNat = v := by
  rw [eq_comm, eq_residue_iff h, Int.emod_eq_of_lt (Int.natCast_nonneg _) (by exact_mod_cast hv)]

theorem ofNat_modAdd_residue (u v : Int) :
    BitVec.ofNat 256 (modAdd W (residue W u).toNat (residue W v).toNat) = residue W (u + v) := by
  rw [eq_residue_iff h, toNat_ofNat_256 h (modAdd_lt _ _ _), modAdd]
  push_cast
  rw [residue_toNat h, residue_toNat h]
  exact (Int.mod_modEq u _).add (Int.mod_modEq v _)

theorem ofNat_modSub_residue (u v : Int) :
    BitVec.ofNat 256 (modSub W (residue W u).toNat (residue W v).toNat) = residue W (u - v) := by
  have hu := residue_lt h u
  have hv := residue_lt h v
  rw [eq_residue_iff h, toNat_ofNat_256 h (modSub_lt hu), modSub_eq_int hu hv, residue_toNat h, residue_toNat h]
  exact (Int.mod_modEq u _).sub (Int.mod_modEq v _)

end

section
variable (cfg : Config) {W : BitVec 10} (h : W = 128 ∨ W = 256)
include h

theorem issueAdd_residue (u v : Int) :
    issueAdd cfg W (residue W.toNat u) (residue W.toNat v) = .ok ⟨W, residue W.toNat (u + v)⟩ := by
  have hW := supported_toNat h
  rw [issueAdd_ok cfg h (residue_lt hW u) (residue_lt hW v), ofNat_modAdd_residue hW]

theorem issueSub_residue (u v : Int) :
    issueSub cfg W (residue W.toNat u) (residue W.toNat v) = .ok ⟨W, residue W.toNat (u - v)⟩ := by
  have hW := supported_toNat h
  rw [issueSub_ok cfg h (residue_lt hW u) (residue_lt hW v), ofNat_modSub_residue hW]

/-! ## SPLIT and the joins on residues -/

theorem split_residue (s a : Int) :
    split cfg W (residue W.toNat s) (residue W.toNat a) =
      .ok ⟨residue W.toNat a, residue W.toNat (s - a), residue W.toNat (2 * a - s)⟩ := by
  have hc : a - (s - a) = 2 * a - s := by ring
  simp only [split, issueSub_residue cfg h, hc, bind, Except.bind, pure, Except.pure]

theorem joinAB_residue (a b : Int) :
    joinAB cfg W (residue W.toNat a) (residue W.toNat b) = .ok ⟨W, residue W.toNat (a + b)⟩ :=
  issueAdd_residue cfg h a b

theorem joinAC_residue (a c : Int) :
    joinAC cfg W (residue W.toNat a) (residue W.toNat c) = .ok ⟨W, residue W.toNat (2 * a - c)⟩ := by
  simp only [joinAC, issueAdd_residue cfg h, bind, Except.bind, issueSub_residue cfg h, two_mul]

theorem joinBC_residue (b c : Int) :
    joinBC cfg W (residue W.toNat b) (residue W.toNat c) = .ok ⟨W, residue W.toNat (2 * b + c)⟩ := by
  simp only [joinBC, issueAdd_residue cfg h, bind, Except.bind, two_mul]

end

/-- Settles O46: both operands are residues, and the formulas of the statement are residues by the definition. -/
theorem joinsComputeTheirFormulas : Obligations.JoinsComputeTheirFormulas := by
  intro cfg W x y hW hx hy
  have hAB := joinAB_residue cfg hW x.toNat y.toNat
  have hAC := joinAC_residue cfg hW x.toNat y.toNat
  have hBC := joinBC_residue cfg hW x.toNat y.toNat
  rw [residue_of_lt (supported_toNat hW) hx, residue_of_lt (supported_toNat hW) hy] at hAB hAC hBC
  exact ⟨hAB, hAC, hBC⟩

/-! ## What SPLIT answers -/

/-- SPLIT of two in-range values (R170, R171). -/
theorem split_ok (cfg : Config) {W : BitVec 10} {s a : Value} (h : W = 128 ∨ W = 256) (hs : s.toNat < 2 ^ W.toNat)
    (ha : a.toNat < 2 ^ W.toNat) :
    split cfg W s a =
      .ok ⟨a, residue W.toNat ((s.toNat : Int) - a.toNat), residue W.toNat (2 * (a.toNat : Int) - s.toNat)⟩ := by
  have hsplit := split_residue cfg h s.toNat a.toNat
  rwa [residue_of_lt (supported_toNat h) hs, residue_of_lt (supported_toNat h) ha] at hsplit

/-- An Ok result of SPLIT passed the checks of its first SUB (R92). -/
theorem lt_of_split_eq_ok {cfg : Config} {W : BitVec 10} {s a : Value} {k : KeyShares} (h : split cfg W s a = .ok k) :
    s.toNat < 2 ^ W.toNat ∧ a.toNat < 2 ^ W.toNat := by
  cases hb : issueSub cfg W s a with
  | error e =>
    rw [split, hb] at h
    cases h
  | ok t =>
    obtain ⟨-, hs, ha, -, -⟩ := issueSub_eq_ok hb
    exact ⟨hs, ha⟩

/-- SPLIT answers a triple exactly when A is in range and the triple satisfies both equations of R171. -/
theorem split_eq_ok_iff {cfg : Config} {W : BitVec 10} {s a b c : Value} (h : W = 128 ∨ W = 256)
    (hs : s.toNat < 2 ^ W.toNat) :
    split cfg W s a = .ok ⟨a, b, c⟩ ↔
      a.toNat < 2 ^ W.toNat ∧ (b.toNat : Int) = ((s.toNat : Int) - a.toNat) % 2 ^ W.toNat ∧
        (c.toNat : Int) = (2 * (a.toNat : Int) - s.toNat) % 2 ^ W.toNat := by
  rw [← eq_residue_iff (supported_toNat h), ← eq_residue_iff (supported_toNat h)]
  constructor
  · intro hk
    have ha := (lt_of_split_eq_ok hk).2
    rw [split_ok cfg h hs ha] at hk
    cases hk
    exact ⟨ha, rfl, rfl⟩
  · rintro ⟨ha, rfl, rfl⟩
    exact split_ok cfg h hs ha

/-- Subtraction modulo m exchanges the subtrahend and the difference: b = s − a exactly when a = s − b. -/
theorem eq_sub_emod_comm {a b s m : Int} (ha : 0 ≤ a ∧ a < m) (hb : 0 ≤ b ∧ b < m) :
    b = (s - a) % m ↔ a = (s - b) % m := by
  have half {x y : Int} (hy : 0 ≤ y ∧ y < m) (hx : x = (s - y) % m) : y = (s - x) % m := by
    rw [hx, Int.sub_emod_emod, sub_sub_cancel, Int.emod_eq_of_lt hy.1 hy.2]
  exact ⟨half ha, half hb⟩

/-- Settles O45: the equations are those of an answered triple; and B = s − A gives s = A + B modulo 2^W, in the range of s. -/
theorem splitInvariant : Obligations.SplitInvariant := by
  intro cfg W s a hW hs ha
  refine ⟨⟨_, _, split_ok cfg hW hs ha, residue_toNat (supported_toNat hW) _, residue_toNat (supported_toNat hW) _⟩, ?_⟩
  intro b c hb _
  have hsum : (s.toNat : Int) = ((a.toNat : Int) + b.toNat) % 2 ^ W.toNat := by
    rw [hb, Int.add_emod_emod, add_sub_cancel, Int.emod_eq_of_lt (Int.natCast_nonneg _) (by exact_mod_cast hs)]
  exact_mod_cast hsum

/-! ## The JOIN dispatcher -/

theorem widthSupported_toNat_iff {W : BitVec 10} : widthSupported W.toNat = true ↔ W = 128 ∨ W = 256 := by
  rw [widthSupported_iff, ← BitVec.toNat_inj, ← BitVec.toNat_inj]
  rfl

section
variable (f : BitVec 10 → Value → Value → HostResult Tagged) {x y : Tagged}

theorem joinPair_unsupported (h : ¬ (x.width = 128 ∨ x.width = 256) ∨ ¬ (y.width = 128 ∨ y.width = 256)) :
    joinPair f x y = .error ⟨.unsupportedBitWidth, 0⟩ := by
  apply if_pos
  simpa only [← widthSupported_toNat_iff, Bool.not_eq_true, ← Bool.not_eq_true', ← Bool.or_eq_true] using h

theorem joinPair_supported (hx : x.width = 128 ∨ x.width = 256) (hy : y.width = 128 ∨ y.width = 256) :
    joinPair f x y = if x.width ≠ y.width then .error ⟨.bitWidthMismatch, 0⟩ else f x.width x.value y.value := by
  apply if_neg
  rw [widthSupported_toNat_iff.2 hx, widthSupported_toNat_iff.2 hy]
  decide

theorem joinPair_mismatch (hx : x.width = 128 ∨ x.width = 256) (hy : y.width = 128 ∨ y.width = 256)
    (hne : x.width ≠ y.width) : joinPair f x y = .error ⟨.bitWidthMismatch, 0⟩ := by
  rw [joinPair_supported f hx hy, if_pos hne]

theorem joinPair_same (hx : x.width = 128 ∨ x.width = 256) (heq : x.width = y.width) :
    joinPair f x y = f x.width x.value y.value := by
  rw [joinPair_supported f hx (heq ▸ hx), if_neg (not_not_intro heq)]

end

theorem join_AB (cfg : Config) (x y : Tagged) (third : Option Tagged) :
    join cfg (some x) (some y) third = joinPair (joinAB cfg) x y := rfl

theorem join_AC (cfg : Config) (x y : Tagged) : join cfg (some x) none (some y) = joinPair (joinAC cfg) x y := rfl

theorem join_BC (cfg : Config) (x y : Tagged) : join cfg none (some x) (some y) = joinPair (joinBC cfg) x y := rfl

/-- Settles O49: the shares present choose the pair, and the checks of `joinPair` are the same for the three pairs. -/
theorem joinDispatcher : Obligations.JoinDispatcher := by
  intro cfg x y third supported
  simp only [join_AB, join_AC, join_BC]
  refine ⟨⟨rfl, rfl, rfl, rfl⟩, fun h => ?_, fun hx hy hne => ?_, fun hx heq => ?_⟩
  · exact ⟨joinPair_unsupported _ h, joinPair_unsupported _ h, joinPair_unsupported _ h⟩
  · exact ⟨joinPair_mismatch _ hx hy hne, joinPair_mismatch _ hx hy hne, joinPair_mismatch _ hx hy hne⟩
  · exact ⟨joinPair_same _ hx heq, joinPair_same _ hx heq, joinPair_same _ hx heq⟩

/-- Settles O47: A, B and C are the residues of a, s − a and 2a − s, on which each join gives the residue of s. -/
theorem anyTwoSharesRecoverSecret : Obligations.AnyTwoSharesRecoverSecret := by
  intro cfg W s a hW hs ha
  have hsame (f : BitVec 10 → Value → Value → HostResult Tagged) (x y : Value) :
      joinPair f ⟨W, x⟩ ⟨W, y⟩ = f W x y := joinPair_same f hW rfl
  rw [← residue_of_lt (supported_toNat hW) hs, ← residue_of_lt (supported_toNat hW) ha]
  generalize (s.toNat : Int) = u, (a.toNat : Int) = v
  have hAB : v + (u - v) = u := by ring
  have hAC : 2 * v - (2 * v - u) = u := by ring
  have hBC : 2 * (u - v) + (2 * v - u) = u := by ring
  refine ⟨_, split_residue cfg hW u v, ?_⟩
  simp only [join_AB, join_AC, join_BC, hsame, joinAB_residue cfg hW, joinAC_residue cfg hW, joinBC_residue cfg hW, hAB,
    hAC, hBC, and_self]

/-! ## The distribution of one share -/

/-- C has the parity of s, because 2^W is even (R178). -/
theorem parity_of_eq_double_sub_emod {W c x s : Nat} (h : W = 128 ∨ W = 256)
    (hc : (c : Int) = (2 * (x : Int) - s) % 2 ^ W) : c % 2 = s % 2 := by
  rcases h with rfl | rfl
  · omega
  · omega

/-- The smaller of the two A that give C: half of s + C, modulo 2^(W−1) (C1). -/
def lowShareA (W s c : Nat) : Nat := (s + c) / 2 % 2 ^ (W - 1)

theorem lowShareA_lt (W s c : Nat) : lowShareA W s c < 2 ^ (W - 1) := Nat.mod_lt _ (Nat.two_pow_pos _)

/-- Halving modulo 2^W: C of the parity of s is that of two A, which differ in the top bit (R178, C1). -/
theorem eq_double_sub_emod_iff {W c x s : Nat} (h : W = 128 ∨ W = 256) (hc : c < 2 ^ W) (hs : s < 2 ^ W)
    (hparity : c % 2 = s % 2) :
    x < 2 ^ W ∧ (c : Int) = (2 * (x : Int) - s) % 2 ^ W ↔
      x = lowShareA W s c ∨ x = lowShareA W s c + 2 ^ (W - 1) := by
  rw [lowShareA]
  rcases h with rfl | rfl
  · omega
  · omega

/-- B determines A, and every B occurs: b = s − a exactly when a is the residue of s − b (R178). -/
theorem exists_split_iff_eq_residue {cfg : Config} {W : BitVec 10} {s a b : Value} (h : W = 128 ∨ W = 256)
    (hs : s.toNat < 2 ^ W.toNat) (hb : b.toNat < 2 ^ W.toNat) :
    (a.toNat < 2 ^ W.toNat ∧ ∃ c, split cfg W s a = .ok ⟨a, b, c⟩) ↔
      a = residue W.toNat ((s.toNat : Int) - b.toNat) := by
  have hW := supported_toNat h
  have hrange {v : Value} (hv : v.toNat < 2 ^ W.toNat) : (0 : Int) ≤ v.toNat ∧ (v.toNat : Int) < 2 ^ W.toNat :=
    ⟨Int.natCast_nonneg _, by exact_mod_cast hv⟩
  constructor
  · rintro ⟨ha, c, hk⟩
    obtain ⟨-, hb', -⟩ := (split_eq_ok_iff h hs).1 hk
    rw [eq_residue_iff hW]
    exact (eq_sub_emod_comm (hrange ha) (hrange hb)).1 hb'
  · intro ha
    have hlt : a.toNat < 2 ^ W.toNat := ha ▸ residue_lt hW _
    have hb' := (eq_sub_emod_comm (hrange hlt) (hrange hb)).2 ((eq_residue_iff hW).1 ha)
    exact ⟨hlt, _, (split_eq_ok_iff h hs).2 ⟨hlt, hb', residue_toNat hW _⟩⟩

/-- C alone: the triples of SPLIT with a given C are those of the in-range A with C = 2A − s (R171). -/
theorem exists_split_iff_eq_double_sub {cfg : Config} {W : BitVec 10} {s a c : Value} (h : W = 128 ∨ W = 256)
    (hs : s.toNat < 2 ^ W.toNat) :
    (∃ b, split cfg W s a = .ok ⟨a, b, c⟩) ↔
      a.toNat < 2 ^ W.toNat ∧ (c.toNat : Int) = (2 * (a.toNat : Int) - s.toNat) % 2 ^ W.toNat := by
  constructor
  · rintro ⟨b, hk⟩
    obtain ⟨ha, -, hc⟩ := (split_eq_ok_iff h hs).1 hk
    exact ⟨ha, hc⟩
  · rintro ⟨ha, hc⟩
    exact ⟨_, (split_eq_ok_iff h hs).2 ⟨ha, residue_toNat (supported_toNat h) _, hc⟩⟩

/-- Settles O48: b = s − A has one solution A modulo 2^W, and c = 2A − s, which has the parity of s, has two. -/
theorem shareDistribution : Obligations.ShareDistribution := by
  intro cfg W s hW hs
  have hWn := supported_toNat hW
  refine ⟨fun b hb => ?_, fun a b c hk => ?_, fun c hc hparity => ?_⟩
  · simp only [exists_split_iff_eq_residue hW hs hb]
    exact existsUnique_eq
  · obtain ⟨-, hc⟩ := (exists_split_iff_eq_double_sub hW hs).1 ⟨b, hk⟩
    exact parity_of_eq_double_sub_emod hWn hc
  · have hlow := lowShareA_lt W.toNat s.toNat c.toNat
    have hdouble : 2 * 2 ^ (W.toNat - 1) = 2 ^ W.toNat := by rw [← pow_succ', Nat.sub_add_cancel (by omega)]
    obtain ⟨a, ha⟩ : ∃ a : Value, a.toNat = lowShareA W.toNat s.toNat c.toNat :=
      ⟨_, toNat_ofNat_256 hWn (by omega)⟩
    obtain ⟨a', ha'⟩ : ∃ a' : Value, a'.toNat = lowShareA W.toNat s.toNat c.toNat + 2 ^ (W.toNat - 1) :=
      ⟨_, toNat_ofNat_256 hWn (by omega)⟩
    refine ⟨a, a', by rw [ha, ha'], fun x => ?_⟩
    rw [exists_split_iff_eq_double_sub hW hs, eq_double_sub_emod_iff hWn hc hs hparity, ← ha', ← ha, BitVec.toNat_inj,
      BitVec.toNat_inj]

end Sys2Proof.Machine
end

section
/-! PROOFS. Edit distance: `lev` as the least number of edits, its recurrence and its bounds (spec/45_fuzzy.md R192). -/

namespace Sys2Proof.Machine

/-! ## The least number of edits -/

@[simp] theorem editDist_self (u : List Symbol) : editDist u u = 0 :=
  Nat.le_zero.1 (editDist_append_le [] u)

/-- Every edit brings the distance to the last list down by at most one, and it ends at 0. -/
theorem Edits.editDist_le {n : Nat} {u v : List Symbol} (h : Edits n u v) : editDist u v ≤ n := by
  induction h with
  | none u => exact (editDist_self u).le
  | more hedit _ ih => exact (hedit.editDist_le _).trans (Nat.succ_le_succ ih)

theorem edits_lev (u v : List Symbol) : Edits (lev u v) u v := by
  have h := (edits_editDist u.reverse v.reverse).reverse
  rwa [List.reverse_reverse, List.reverse_reverse, ← lev_eq_editDist] at h

theorem Edits.lev_le {n : Nat} {u v : List Symbol} (h : Edits n u v) : lev u v ≤ n := by
  rw [lev_eq_editDist]
  exact h.reverse.editDist_le

/-- Settles O37: that many edits exist, and no sequence of edits is shorter than the distance it covers. -/
theorem levIsLeastEdits : Obligations.LevIsLeastEdits :=
  fun u v => ⟨edits_lev u v, fun _ h => h.lev_le⟩

/-! ## The recurrence -/

@[simp] theorem lev_nil_left (v : List Symbol) : lev [] v = v.length := by
  rw [lev_eq_editDist, List.reverse_nil, editDist_nil_left, List.length_reverse]

@[simp] theorem lev_nil_right (u : List Symbol) : lev u [] = u.length := by
  rw [lev_eq_editDist, List.reverse_nil, editDist_nil_right, List.length_reverse]

/-- One more symbol at the end of both Words is one more at the head of both lists of `editDist`. -/
theorem lev_concat_concat (u v : List Symbol) (a b : Symbol) :
    lev (u ++ [a]) (v ++ [b]) =
      min (min (lev u (v ++ [b]) + 1) (lev (u ++ [a]) v + 1)) (lev u v + if a = b then 0 else 1) := by
  simp only [lev_eq_editDist, List.reverse_concat, editDist_cons_cons]

/-- Settles O38: the border of the table and its recurrence. -/
theorem levRecurrence : Obligations.LevRecurrence :=
  ⟨lev_nil_left, lev_nil_right, lev_concat_concat⟩

/-! ## The facts of R192 -/

/-- No edits at all are needed exactly between equal Words. -/
theorem lev_eq_zero_iff {u v : List Symbol} : lev u v = 0 ↔ u = v := by
  rw [lev_eq_editDist]
  constructor
  · intro h
    exact List.reverse_injective (eq_of_editDist_eq_zero h)
  · rintro rfl
    exact editDist_self _

theorem lev_comm (u v : List Symbol) : lev u v = lev v u := by
  rw [lev_eq_editDist, lev_eq_editDist, editDist_comm]

theorem length_le_lev (u v : List Symbol) : u.length ≤ v.length + lev u v := by
  rw [lev_eq_editDist, ← List.length_reverse, ← List.length_reverse (as := v)]
  exact length_le_editDist _ _

theorem lev_le_max (u v : List Symbol) : lev u v ≤ max u.length v.length := by
  rw [lev_eq_editDist, ← List.length_reverse, ← List.length_reverse (as := v)]
  exact editDist_le_max _ _

/-- Appending t one symbol at a time turns u into u ++ t. -/
theorem lev_append_le (u t : List Symbol) : lev u (u ++ t) ≤ t.length := by
  rw [lev_eq_editDist, List.reverse_append, ← List.length_reverse]
  exact editDist_append_le _ _

/-- Settles O39: the two bounds by the difference of the lengths are one bound by symmetry, and u meets it when v
extends u. -/
theorem levFacts : Obligations.LevFacts := by
  intro u v
  have hu := length_le_lev u v
  have hv := lev_comm v u ▸ length_le_lev v u
  refine ⟨lev_eq_zero_iff, lev_comm u v, by omega, by omega, lev_le_max u v, ?_⟩
  rintro ⟨t, rfl⟩
  have hle := lev_append_le u t
  rw [List.length_append] at hv ⊢
  omega

end Sys2Proof.Machine
end

section
/-! PROOFS. SUGGEST: its encoding and result, its corner cases, what a host presents of it, and CHECK_WORDS
(spec/45_fuzzy.md R190 to R198). -/

namespace Sys2Proof.Machine

/-! ## The result -/

/-- `prefixMatch` as an option: the one element of the list P of R190, and none when P has not exactly one. -/
theorem exists_option_suggestionOf (l : List Index) :
    ∃ P : Option Index, (∀ p, P = some p ↔ l = [p]) ∧ ∀ n, suggestionOf n l = suggestionOf n P.toList := by
  match l with
  | [] => exact ⟨none, by simp, fun _ => rfl⟩
  | [p] => exact ⟨some p, by simp, fun _ => rfl⟩
  | _ :: _ :: _ => exact ⟨none, by simp, fun _ => rfl⟩

/-- `prefixMatch` is the only entry in `prefixEntries`, where there is only one (R191). -/
theorem exists_prefixMatch (cfg : Config) (w : Word) :
    ∃ P : Option Index, (∀ p, P = some p ↔ ∀ i, i ∈ prefixEntries cfg w ↔ i = p) ∧
      ∀ n, suggestionOf n (prefixEntries cfg w) = suggestionOf n P.toList := by
  obtain ⟨P, hP, hsugg⟩ := exists_option_suggestionOf (prefixEntries cfg w)
  exact ⟨P, fun p => (hP p).trans prefixEntries_eq_singleton, hsugg⟩

/-- Settles O36: the row of `OP` 7 in the decoder, the nearest entry by `nearestEntry_spec`, and `prefixMatch`. -/
theorem suggestCompletes : Obligations.SuggestCompletes := by
  refine ⟨fun w hw => decode_of_mask (op := 7) (by decide) hw, ?_⟩
  intro s L u e hasPrefix
  obtain ⟨hmin, hfirst⟩ := nearestEntry_spec Config.platform (inputWord L s.request)
  obtain ⟨P, hP, hsugg⟩ := exists_prefixMatch Config.platform (inputWord L s.request)
  have hmem (i : Index) : i ∈ prefixEntries Config.platform (inputWord L s.request) ↔ hasPrefix i :=
    mem_prefixEntries.trans (and_congr_right fun _ => List.prefix_iff_eq_take)
  refine ⟨_, P, hmin, hfirst, fun p => ?_, ?_⟩
  · simp only [hP, hmem]
  · rw [exec_eq_next_iff, respond, suggestResponse, hsugg]
    cases P <;> rfl

/-! ## The empty Word -/

/-- Every entry starts with the empty Word and is longer, so the empty Word has no `prefixMatch` (R196 (a)). -/
theorem suggestionOf_prefixEntries_of_nil {cfg : Config} {w : Word} (h : w.symbols = []) (n : Index) :
    suggestionOf n (prefixEntries cfg w) = .ok (.suggestion 0 1 [knownSlot n]) := by
  have hmem (i : Index) : i ∈ prefixEntries cfg w := by
    rw [mem_prefixEntries, h]
    exact ⟨cfg.wordlist_nonempty i, List.nil_prefix⟩
  rcases suggestionOf_cases n (prefixEntries cfg w) with ⟨p, hp, -⟩ | ⟨-, e⟩
  · have hone := prefixEntries_eq_singleton.1 hp
    exact absurd (((hone 0).1 (hmem 0)).trans ((hone 1).1 (hmem 1)).symm) (by decide)
  · exact e

/-! ## A Word that is an entry -/

theorem wordlist_symbols_injective {cfg : Config} {i j : Index}
    (h : (cfg.wordlist i).symbols = (cfg.wordlist j).symbols) : i = j := by
  apply cfg.wordlist_injective
  cases hi : cfg.wordlist i
  cases hj : cfg.wordlist j
  simpa [hi, hj] using h

/-- An entry is at distance 0 from itself and from no other entry, as the entries are different (R196 (b)). -/
theorem nearestEntry_entry (cfg : Config) (k : Index) : nearestEntry cfg (cfg.wordlist k) = k := by
  have hzero : lev (cfg.wordlist k).symbols (cfg.wordlist k).symbols = 0 := lev_eq_zero_iff.2 rfl
  have hle := (nearestEntry_spec cfg (cfg.wordlist k)).1 k
  rw [hzero, Nat.le_zero, lev_eq_zero_iff] at hle
  exact (wordlist_symbols_injective hle).symm

/-- The `prefixEntries` of an entry are the other entries that start with it (R196 (b)). -/
theorem mem_prefixEntries_entry {cfg : Config} {k i : Index} :
    i ∈ prefixEntries cfg (cfg.wordlist k) ↔ i ≠ k ∧ (cfg.wordlist k).symbols <+: (cfg.wordlist i).symbols := by
  rw [mem_prefixEntries]
  refine and_congr_left fun hprefix => ⟨?_, fun hne => ?_⟩
  · rintro hlt rfl
    exact lt_irrefl _ hlt
  · refine lt_of_le_of_ne hprefix.length_le fun hlen => hne ?_
    exact (wordlist_symbols_injective (hprefix.eq_of_length hlen)).symm

/-- Settles O40: the distance from the empty Word is the length, and every entry starts with it; an entry is nearest to itself,
and its `prefixEntries` are among the other entries. -/
theorem suggestCornerCases : Obligations.SuggestCornerCases := by
  refine ⟨fun s => ?_, fun s L k hk => ?_⟩
  · have hnil : (inputWord 0 s.request).symbols = [] := rfl
    obtain ⟨hmin, hfirst⟩ := nearestEntry_spec Config.platform (inputWord 0 s.request)
    simp only [hnil, lev_nil_left] at hmin hfirst
    refine ⟨_, hmin, hfirst, ?_⟩
    rw [exec_eq_next_iff, respond, suggestResponse, suggestionOf_prefixEntries_of_nil hnil]
  · have hw : Config.platform.wordlist k = inputWord L s.request := wordlist_eq_inputWord.2 hk.symm
    obtain ⟨P, hP, hsugg⟩ := exists_prefixMatch Config.platform (Config.platform.wordlist k)
    refine ⟨P, fun p => ?_, ?_⟩
    · simp only [hP, mem_prefixEntries_entry]
    · rw [exec_eq_next_iff, respond, suggestResponse, ← hw, hsugg, nearestEntry_entry]
      cases P <;> rfl

/-! ## The host -/

/-- Settles O41: the cases of `prefixMatch` that `presented` distinguishes. -/
theorem presentedSuggestions : Obligations.PresentedSuggestions :=
  fun _ _ => ⟨rfl, if_pos rfl, fun hne => if_neg hne⟩

/-- An entry is known without SUGGEST (R198). -/
theorem checkWord_entry (cfg : Config) (i : Index) :
    checkWord cfg (cfg.wordlist i) = ⟨cfg.wordlist i, true, none⟩ := by
  simp only [checkWord, issueWidx_entry]

/-- A Word that is no entry is unknown, with what SUGGEST answers (R198). -/
theorem checkWord_absent {cfg : Config} {w : Word} {g : Suggestion} (h : ∀ i, cfg.wordlist i ≠ w)
    (hg : issueSuggest cfg w = .ok g) : checkWord cfg w = ⟨w, false, some g⟩ := by
  simp only [checkWord, issueWidx_absent h, hg]
  rfl

theorem checkWords_getElem? (cfg : Config) {words : List Word} {k : Nat} {w : Word} (h : words[k]? = some w) :
    (checkWords cfg words)[k]? = some (checkWord cfg w) := by
  rw [checkWords, List.getElem?_map, h, Option.map_some]

/-- Settles O42: the report is word by word, and SUGGEST answers for every Word. -/
theorem checkWordsReports : Obligations.CheckWordsReports := by
  refine fun cfg words => ⟨List.length_map _, fun k w hk => ?_⟩
  rw [checkWords_getElem? cfg hk]
  constructor
  · rintro ⟨i, rfl⟩
    rw [checkWord_entry]
  · intro habsent
    obtain ⟨g, hg⟩ := issueSuggest_ok cfg w
    exact ⟨g, hg, by rw [checkWord_absent habsent hg]⟩

end Sys2Proof.Machine
end

section
/-! PROOFS. The host forms HEX, HEXBITS, MNEMBITS and FROMBYTES (spec/46_host_forms.md R210 to R213). -/

namespace Sys2Proof.Machine

/-! ## HEX -/

/-- The digits of R210, in order. -/
theorem hexChar_eq_getElem? {d : Nat} (h : d < 16) :
    some (hexChar d) = ['0', '1', '2', '3', '4', '5', '6', '7', '8', '9', 'a', 'b', 'c', 'd', 'e', 'f'][d]? := by
  revert d
  decide

theorem hexDigits_length (W s : Nat) : (hexDigits W s).length = W / 4 := by simp [hexDigits]

theorem hexDigits_getElem? {W s j : Nat} (h : j < W / 4) :
    (hexDigits W s)[j]? = some (hexChar (s / 2 ^ (4 * (W / 4 - 1 - j)) % 16)) := by
  have hnibble (x : Nat) : x &&& 0xF = x % 16 := Nat.and_two_pow_sub_one_eq_mod x 4
  simp [hexDigits, h, hnibble, Nat.shiftRight_eq_div_pow]

/-- Settles O50: digit j is the character of its nibble, and a nibble is below 16. -/
theorem hexDigitsOfSecret : Obligations.HexDigitsOfSecret := by
  refine fun W s _ _ => ⟨hexDigits_length W s, fun j hj => ?_⟩
  rw [hexDigits_getElem? hj, hexChar_eq_getElem? (Nat.mod_lt _ (by decide))]

/-! ## HEXBITS -/

theorem hexValue_append (l : List (BitVec 4)) (d : BitVec 4) : hexValue (l ++ [d]) = hexValue l * 16 + d.toNat := by
  simp [hexValue]

/-- One more digit at the end moves every other digit up by one position. -/
theorem hexValue_eq_sum (l : List (BitVec 4)) :
    hexValue l = ∑ k ∈ Finset.range l.length, (l.getD k 0).toNat * 16 ^ (l.length - 1 - k) := by
  induction l using List.reverseRecOn with
  | nil => rfl
  | append_singleton l d ih =>
    rw [hexValue_append, ih, List.length_append, List.length_singleton, Finset.sum_range_succ, Finset.sum_mul]
    congr 1
    · apply Finset.sum_congr rfl
      intro k hk
      have hk := Finset.mem_range.1 hk
      have hexp : l.length + 1 - 1 - k = l.length - 1 - k + 1 := by omega
      rw [List.getD_append _ _ _ _ hk, hexp, pow_succ, mul_assoc]
    · simp

theorem hexValue_lt (l : List (BitVec 4)) : hexValue l < 2 ^ (4 * l.length) := by
  induction l using List.reverseRecOn with
  | nil => simp [hexValue]
  | append_singleton l d ih =>
    have hd := d.isLt
    rw [hexValue_append, List.length_append, List.length_singleton, Nat.mul_add, pow_add]
    omega

/-- The value of a hex string fits every width that has room for its digits (R211). -/
theorem hexValue_lt_of_length_le {l : List (BitVec 4)} {W : Nat} (h : 4 * l.length ≤ W) : hexValue l < 2 ^ W :=
  (hexValue_lt l).trans_le (Nat.pow_le_pow_right (by decide) h)

theorem hexBits_zero : hexBits 0 = .ok none := rfl

theorem hexBits_128 {n : Nat} (h₁ : 1 ≤ n) (h₂ : n ≤ 32) : hexBits n = .ok (some 128) := by
  rw [hexBits, if_neg (by omega), if_pos h₂]

theorem hexBits_256 {n : Nat} (h₁ : 33 ≤ n) (h₂ : n ≤ 64) : hexBits n = .ok (some 256) := by
  rw [hexBits, if_neg (by omega), if_neg (by omega), if_pos h₂]

theorem hexBits_unsupported {n : Nat} (h : 65 ≤ n) : hexBits n = .error ⟨.unsupportedBitWidth, 0⟩ := by
  rw [hexBits, if_neg (by omega), if_neg (by omega), if_neg (by omega)]

theorem shareOfHex_ok {l : List (BitVec 4)} {width : Option (BitVec 10)} (h : hexBits l.length = .ok width) :
    shareOfHex l = .ok (width.map fun W => ⟨W, BitVec.ofNat 256 (hexValue l)⟩) := by
  rw [shareOfHex, h]
  rfl

theorem shareOfHex_error {l : List (BitVec 4)} {e : HostError} (h : hexBits l.length = .error e) :
    shareOfHex l = .error e := by
  rw [shareOfHex, h]
  rfl

/-- Settles O51: the value by induction on the digits, and the ranges of `hexBits`, each width with room for its digits. -/
theorem hexStringWidth : Obligations.HexStringWidth := by
  refine fun l => ⟨hexValue_eq_sum l, hexValue_lt l, ?_, ?_, ?_, ?_⟩
  · intro hzero
    exact shareOfHex_ok (hzero ▸ hexBits_zero)
  · intro hlow hhigh
    exact ⟨hexValue_lt_of_length_le (by omega), shareOfHex_ok (hexBits_128 hlow hhigh)⟩
  · intro hlow hhigh
    exact ⟨hexValue_lt_of_length_le (by omega), shareOfHex_ok (hexBits_256 hlow hhigh)⟩
  · intro hlong
    exact shareOfHex_error (hexBits_unsupported hlong)

/-! ## MNEMBITS -/

theorem mnemBits_of_width {n W : Nat} (h : (n = 12 ∧ W = 128) ∨ (n = 24 ∧ W = 256)) :
    mnemBits n = .ok (BitVec.ofNat 10 W) := by
  rw [mnemBits, widthOfCount_eq_some.2 h]

theorem mnemBits_invalidWordCount {n : Nat} (h₁ : n ≠ 12) (h₂ : n ≠ 24) :
    mnemBits n = .error ⟨.invalidWordCount, 0⟩ := by
  rw [mnemBits, widthOfCount, if_neg h₁, if_neg h₂]

/-- Settles O52: the inference of the width from the count, which is DEC's, and its inverse `wordCount`. -/
theorem mnemonicWidth : Obligations.MnemonicWidth :=
  ⟨mnemBits_of_width (.inl ⟨rfl, rfl⟩), mnemBits_of_width (.inr ⟨rfl, rfl⟩), fun _ => mnemBits_invalidWordCount,
    wordCount_eq (.inl ⟨rfl, rfl⟩), wordCount_eq (.inr ⟨rfl, rfl⟩)⟩

/-! ## FROMBYTES -/

/-- Up to 32 bytes fit a `Value`, with nothing cut off. -/
theorem ofNat_fromBytes_toNat {b : List Byte} (h : b.length ≤ 32) :
    (BitVec.ofNat 256 (fromBytes b)).toNat = fromBytes b := by
  rw [BitVec.toNat_ofNat, Nat.mod_eq_of_lt]
  exact (fromBytes_lt b).trans_le (Nat.pow_le_pow_right (by decide) (by omega))

theorem secretOfBytes_16 {b : List Byte} (h : b.length = 16) :
    secretOfBytes b = .ok ⟨128, BitVec.ofNat 256 (fromBytes b)⟩ := if_pos h

theorem secretOfBytes_32 {b : List Byte} (h : b.length = 32) :
    secretOfBytes b = .ok ⟨256, BitVec.ofNat 256 (fromBytes b)⟩ := by
  rw [secretOfBytes, if_neg (by omega), if_pos h]

theorem secretOfBytes_unsupported {b : List Byte} (h₁ : b.length ≠ 16) (h₂ : b.length ≠ 32) :
    secretOfBytes b = .error ⟨.unsupportedBitWidth, 0⟩ := by
  rw [secretOfBytes, if_neg h₁, if_neg h₂]

/-- The byte form of the Secret of a buffer is the buffer (R41, R213). -/
theorem entBytes_ofNat_fromBytes {b : List Byte} {W : Nat} (hlen : b.length ≤ 32) (hW : W = 8 * b.length) :
    entBytes (BitVec.ofNat 256 (fromBytes b)).toNat W = b := by
  rw [ofNat_fromBytes_toNat hlen, hW, entBytes_fromBytes]

/-- Settles O53: the branches of `secretOfBytes`, with `entBytes` as the inverse of `fromBytes`. -/
theorem secretOfBytesBigEndian : Obligations.SecretOfBytesBigEndian := by
  refine fun b => ⟨fun h => ?_, fun h => ?_, secretOfBytes_unsupported⟩
  · exact ⟨_, secretOfBytes_16 h, ofNat_fromBytes_toNat (by omega), entBytes_ofNat_fromBytes (by omega) (by omega)⟩
  · exact ⟨_, secretOfBytes_32 h, ofNat_fromBytes_toNat (by omega), entBytes_ofNat_fromBytes (by omega) (by omega)⟩

end Sys2Proof.Machine
end

section
/-! PROOFS. The `STATUS` and `INFO` codes of a response (spec/60_exceptions.md R220, R221), and the hazard of a stated width that
is not the width of the operands (spec/70_reset_and_hazards.md R254). -/

namespace Sys2Proof.Machine

/-! ## The codes of the error kinds -/

theorem errorCode_toNat_le (kind : ErrorKind) : (errorCode kind).toNat ≤ 7 := by
  cases kind <;> decide

theorem errorCode_ne_zero (kind : ErrorKind) : errorCode kind ≠ 0 := by
  cases kind <;> decide

theorem errorCode_eq_three_iff {kind : ErrorKind} : errorCode kind = 3 ↔ kind = .unknownWord := by
  cases kind <;> decide

theorem errorCode_eq_four_iff {kind : ErrorKind} : errorCode kind = 4 ↔ kind = .insufficientShares := by
  cases kind <;> decide

/-! ## The ports of a response -/

/-- On `STATUS` and `INFO`, a response the block may give is Ok or one of its six kinds, with a position only for
`UnknownWord` (R221). -/
theorem Response.Safe.status_info {r : Response} (h : r.Safe) :
    r.status.toNat ≤ 7 ∧ r.status ≠ 4 ∧ (r.status ≠ 3 → r.info = 0) ∧ r.info.toNat < 24 := by
  cases r with
  | ok ports => exact ⟨by simp [Response.status], by simp [Response.status], fun _ => rfl, by simp [Response.info]⟩
  | error kind info =>
    obtain ⟨hkind, hinfo, hzero⟩ := h
    exact ⟨errorCode_toNat_le kind, mt errorCode_eq_four_iff.1 hkind, fun h₃ => hzero (mt errorCode_eq_three_iff.2 h₃), hinfo⟩

/-- An error gives no data (R220). -/
theorem Response.no_data_port_of_status_ne_zero {r : Response} (h : r.status ≠ 0) :
    r.res = none ∧ r.resw = none ∧ r.nwout = none ∧ r.wout = none ∧ r.pfxv = none ∧ r.wlenout = none ∧ r.chout = none := by
  obtain ⟨kind, info, rfl⟩ := exists_error_of_status_ne_zero h
  exact ⟨rfl, rfl, rfl, rfl, rfl, rfl, rfl⟩

theorem Response.exists_ok_of_status_eq_zero {r : Response} (h : r.status = 0) : ∃ ports, r = .ok ports := by
  cases r with
  | ok ports => exact ⟨ports, rfl⟩
  | error kind info => exact absurd h (errorCode_ne_zero kind)

/-- Settles O12: a step answers a safe response, whatever stood on the response ports before, and the codes are read off its
form. -/
theorem statusAndInfoCodes : Obligations.StatusAndInfoCodes := by
  intro s t r hstep hr
  rw [step_eq_next_iff.1 hstep, State.answer_response, Option.some.injEq] at hr
  obtain ⟨hstatus, hfour, hinfo, hpos⟩ := (hr ▸ issue_safe Config.platform s.request : r.Safe).status_info
  exact ⟨hstatus, hfour, hinfo, hpos, Response.no_data_port_of_status_ne_zero, Response.exists_ok_of_status_eq_zero⟩

/-! ## ADD at a width that is not the operands' -/

/-- Settles O21: the sum at 128 is reduced below 2^128, and the sum at 256 is a + b itself. -/
theorem wrongWidthGivesWrongSum : Obligations.WrongWidthGivesWrongSum := by
  intro a b ha hb hwrap
  refine ⟨_, _, addOf_ok (.inl rfl) ha hb, addOf_ok (.inr rfl) a.isLt b.isLt, fun h => ?_⟩
  have hsame : modAdd 128 a.toNat b.toNat = modAdd 256 a.toNat b.toNat := by
    rw [← toNat_ofNat_256 (.inl rfl) (modAdd_lt 128 _ _), h, toNat_ofNat_256 (.inr rfl) (modAdd_lt 256 _ _)]
  have hreduced : modAdd 128 a.toNat b.toNat < 2 ^ 128 := modAdd_lt 128 _ _
  have hexact : modAdd 256 a.toNat b.toNat = a.toNat + b.toNat := Nat.mod_eq_of_lt (by omega)
  omega

end Sys2Proof.Machine
end
